-- ==== Sys2Proof/Word.lean ====
section
/-! DEFINITION. The word types of the block, by the widths of 00_scope.md R6 and 30_encoding.md R60. -/

namespace Sys2Proof

/-- An 8-bit field: OP or K of a header (R62), or the STATUS register (R29). -/
abbrev Byte := BitVec 8

/-- The 16-bit command header `CMD_HDR` (R62). -/
abbrev Header := BitVec 16

/-- A 64-bit operand lane, or one of the words HI and LO (R6, R60). -/
abbrev Lane := BitVec 64

/-- A 128-bit Num (R13, R22): the accumulator, a ROM entry, a multiplier operand. -/
abbrev Num128 := BitVec 128

end Sys2Proof
end

