-- ==== Sys2Proof/Config.lean ====
section
/-! DEFINITION. What is fixed for the block or left as a parameter: the parameters of 00_scope.md R6 and R7. -/

namespace Sys2Proof.Config

/-- The identity string (R1, decision D1). -/
def identity : String := "DEC128-v1"

/-- `NSCALE`: the number of ScaleTable ROM entries (R6). -/
def nScale : Nat := 39

/-- `KMAX`: the largest legal scale index (R6). -/
def kMax : Nat := 38

/-- The number of values of the 8-bit field K (R62). -/
def kValues : Nat := 256

/-- The most decimal digits the host appends with one SHADD (R6 "largest host chunk", R13 "Chunk", R107). -/
def chunkDigits : Nat := 18

/-- The open parameters of R7: "The model takes them as arguments, and no rule of the architectural
semantics depends on them". `lat op` is `LAT_op` for a header whose OP byte is `op`; an undefined OP has one as
well, since a faulting command "completes like any other" (R122). DEDUCED, safe (log 12). -/
structure Timing where
  lat : Byte → Nat
  resetCycles : Nat
  lat_pos : ∀ op, 1 ≤ lat op
  resetCycles_pos : 1 ≤ resetCycles

end Sys2Proof.Config
end

