-- ==== Sys2Proof/Syntax.lean ====
section
/-! DEFINITION. The commands of the block: the ten opcodes of R64, a decoded command with its operands (R63), and a
command as it crosses the port (R62). -/

namespace Sys2Proof

/-- The ten defined opcodes (R64). -/
inductive Op where
  | nop | ldu64 | ldi64 | ld128 | ldp10 | neg | add | mul | mulp10 | shadd
  deriving DecidableEq, Repr

/-- One command with the operands it uses (R63), one constructor per row of spec/opcode_table.json. A scale index is
a number (R84 `k = uint_8(K)`); that it fits the field K is checked in WellFormed (log 10). -/
inductive Instr where
  /-- R80 -/
  | nop
  /-- R81: `v = CMD_OPL` -/
  | ldu64 (v : Lane)
  /-- R82: `v = CMD_OPL` -/
  | ldi64 (v : Lane)
  /-- R83: `hi = CMD_OPH`, `lo = CMD_OPL` -/
  | ld128 (hi lo : Lane)
  /-- R84: `k = uint_8(K)` -/
  | ldp10 (k : Nat)
  /-- R90 -/
  | neg
  /-- R91: `delta = CMD_OPL` -/
  | add (delta : Lane)
  /-- R100: the multiplier's two words, `OP = CMD_OPH : CMD_OPL` -/
  | mul (hi lo : Lane)
  /-- R101: `k = uint_8(K)` -/
  | mulp10 (k : Nat)
  /-- R102: `k = uint_8(K)`, `chunk = CMD_OPL` -/
  | shadd (k : Nat) (chunk : Lane)
  deriving DecidableEq, Repr

/-- One 144-bit transfer of the command port (R62): the header and the two operand lanes. -/
structure Command where
  hdr : Header
  oph : Lane
  opl : Lane
  deriving DecidableEq, Repr

end Sys2Proof
end

