-- ==== Sys2Proof/WellFormed.lean ====
section
/-! DEFINITION. Which terms of `Instr` a command word can hold. -/

namespace Sys2Proof

/-- The scale index fits the 8-bit field K (R62: "unsigned 0..255"; R68: `k > 255` "does not fit the field"). An index
of 39 to 255 is well formed: it encodes, and faults when executed (R65). -/
def Instr.wellFormed : Instr → Bool
  | .nop => true
  | .ldu64 _ => true
  | .ldi64 _ => true
  | .ld128 _ _ => true
  | .ldp10 k => decide (k < Config.kValues)
  | .neg => true
  | .add _ => true
  | .mul _ _ => true
  | .mulp10 k => decide (k < Config.kValues)
  | .shadd k _ => decide (k < Config.kValues)

end Sys2Proof
end

