-- ==== Sys2Proof/Decode.lean ====
section
/-! DEFINITION. Decoding of a command word (R62 to R67), total on every word and rejecting by name, and after it the
encoder from the same tables. -/

namespace Sys2Proof

/-- `OP = CMD_HDR[15:8]` (R62). -/
def opField (h : Header) : Byte := h.extractLsb' 8 8

/-- `K = CMD_HDR[7:0]` (R62). -/
def kField (h : Header) : Byte := h.extractLsb' 0 8

/-- The opcode of each command (R64). -/
def Op.code : Op → Byte
  | .nop => 0x00
  | .ldu64 => 0x01
  | .ldi64 => 0x02
  | .ld128 => 0x03
  | .ldp10 => 0x04
  | .neg => 0x08
  | .add => 0x09
  | .mul => 0x0A
  | .mulp10 => 0x0B
  | .shadd => 0x0C

/-- The opcode map (R64), every defined opcode once. -/
def opcodeMap : List Op :=
  [.nop, .ldu64, .ldi64, .ld128, .ldp10, .neg, .add, .mul, .mulp10, .shadd]

/-- The defined opcode that a header's OP byte names, if any (R64). -/
def Op.ofCode (b : Byte) : Option Op := opcodeMap.find? fun o => o.code == b

/-- The K-using commands: `OP in {0x04, 0x0B, 0x0C}` (R65). -/
def Op.usesK : Op → Bool
  | .ldp10 | .mulp10 | .shadd => true
  | .nop | .ldu64 | .ldi64 | .ld128 | .neg | .add | .mul => false

/-- The commands that read the lane CMD_OPH (R63). -/
def Op.usesOph : Op → Bool
  | .ld128 | .mul => true
  | .nop | .ldu64 | .ldi64 | .ldp10 | .neg | .add | .mulp10 | .shadd => false

/-- The commands that read the lane CMD_OPL (R63). -/
def Op.usesOpl : Op → Bool
  | .ldu64 | .ldi64 | .ld128 | .add | .mul | .shadd => true
  | .nop | .ldp10 | .neg | .mulp10 => false

/-- How each command's operands are assembled from K and the lanes (R63). -/
def operandsOf (op : Op) (k : Nat) (oph opl : Lane) : Instr :=
  match op with
  | .nop => .nop
  | .ldu64 => .ldu64 opl
  | .ldi64 => .ldi64 opl
  | .ld128 => .ld128 oph opl
  | .ldp10 => .ldp10 k
  | .neg => .neg
  | .add => .add opl
  | .mul => .mul oph opl
  | .mulp10 => .mulp10 k
  | .shadd => .shadd k opl

/-- Why a header is no command: the two kinds of illegal encoding of R66. Both raise IllegalCommand. -/
inductive Illegal where
  /-- `OP` outside {0x00..0x04, 0x08..0x0C}, with any K (R66). -/
  | undefinedOp (op : Byte)
  /-- A defined non-K opcode with `K ≠ 0` (R66). -/
  | nonzeroK (op : Op) (k : Byte)
  deriving DecidableEq, Repr

/-- `decode` of R65, with the operands of R63. `.error` is where R65 says `raise IllegalCommand(h)`; the range of K
is not checked here. -/
def decode (c : Command) : Except Illegal Instr :=
  match Op.ofCode (opField c.hdr) with
  | none => .error (.undefinedOp (opField c.hdr))
  | some op =>
    if op.usesK = false ∧ kField c.hdr ≠ 0 then .error (.nonzeroK op (kField c.hdr))
    else .ok (operandsOf op (kField c.hdr).toNat c.oph c.opl)

/-- The opcode of a command. -/
def Instr.op : Instr → Op
  | .nop => .nop
  | .ldu64 _ => .ldu64
  | .ldi64 _ => .ldi64
  | .ld128 _ _ => .ld128
  | .ldp10 _ => .ldp10
  | .neg => .neg
  | .add _ => .add
  | .mul _ _ => .mul
  | .mulp10 _ => .mulp10
  | .shadd _ _ => .shadd

/-- What stands in the field K: the scale index, and 0 for every other opcode (R62). -/
def Instr.kValue : Instr → Nat
  | .ldp10 k | .mulp10 k | .shadd k _ => k
  | .nop | .ldu64 _ | .ldi64 _ | .ld128 _ _ | .neg | .add _ | .mul _ _ => 0

/-- What stands on the lane CMD_OPH. DESIGN CHOICE, safe (log 8): the encoder puts 0 on an ignored lane. -/
def Instr.ophValue : Instr → Lane
  | .ld128 hi _ | .mul hi _ => hi
  | .nop | .ldu64 _ | .ldi64 _ | .ldp10 _ | .neg | .add _ | .mulp10 _ | .shadd _ _ => 0

/-- What stands on the lane CMD_OPL. DESIGN CHOICE, safe (log 8): the encoder puts 0 on an ignored lane. -/
def Instr.oplValue : Instr → Lane
  | .ldu64 v | .ldi64 v => v
  | .ld128 _ lo | .mul _ lo => lo
  | .add delta => delta
  | .shadd _ chunk => chunk
  | .nop | .ldp10 _ | .neg | .mulp10 _ => 0

/-- A header from its fields: OP in bits 15:8 and K in bits 7:0 (R62). -/
def headerOf (op k : Byte) : Header := op ++ k

/-- The command word of an instruction (R62 to R64). -/
def encode (i : Instr) : Command :=
  { hdr := headerOf i.op.code (BitVec.ofNat 8 i.kValue), oph := i.ophValue, opl := i.oplValue }

/-- The command whose bits the opcode table numbers: bit 0 is the least significant bit of the header, and the bits from
`nbits` on are 0. The table gives a row the 16 bits of the header only, so both lanes are then 0. DESIGN CHOICE, safe
(log 9): beyond the header, CMD_OPH is bits 79:16 and CMD_OPL is bits 143:80, in the order R60 lists the ports. -/
def commandOfTableWord (nbits w : Nat) : Command :=
  let bits : BitVec 144 := BitVec.ofNat 144 (w % 2 ^ nbits)
  { hdr := bits.extractLsb' 0 16, oph := bits.extractLsb' 16 64, opl := bits.extractLsb' 80 64 }

/-- The instruction this decoder reads from the bits `w` of an opcode-table row; none where it refuses. -/
def decodeTableWord (nbits w : Nat) : Option Instr :=
  match decode (commandOfTableWord nbits w) with
  | .ok i => some i
  | .error _ => none

/-- How many of the 65536 headers decode to an answer with property `p` (R65): OP and K each over 0..255, lanes of 0. -/
def headerCount (p : Except Illegal Instr → Bool) : Nat :=
  ((List.range 256).map fun op =>
    ((List.range 256).filter fun k =>
      p (decode ⟨headerOf (BitVec.ofNat 8 op) (BitVec.ofNat 8 k), 0, 0⟩)).length).sum

end Sys2Proof
end

