-- ==== Sys2Proof/Machine/Operands.lean ====
section
/-! DEFINITION. Words, lanes and values: the views of a 128-bit Num and the forms an operand takes (R8 to R10, R22, R61,
R63). -/

namespace Sys2Proof.Machine

/-- `HI = ACC[127:64]` (R22). -/
def hiWord (n : Num128) : Lane := n.extractLsb' 64 64

/-- `LO = ACC[63:0]` (R22). -/
def loWord (n : Num128) : Lane := n.extractLsb' 0 64

/-- `hi : lo`, with `hi` in bits 127:64 (R8). The 128-bit operand of LD128 and MUL is `CMD_OPH : CMD_OPL` (R61). -/
def ofWords (hi lo : Lane) : Num128 := hi ++ lo

/-- The HI word of the sign extension of a 64-bit value: 64 copies of `v[63]` (R82). -/
def signWord (v : Lane) : Lane := if v.msb then 0xFFFFFFFFFFFFFFFF else 0

/-- `val(HI, LO) = sint_64(HI) × 2^64 + uint_64(LO)` (R9). -/
def numValue (n : Num128) : Int := (hiWord n).toInt * 2 ^ 64 + (loWord n).toNat

/-- MIN, the least Num: `HI = 0x8000000000000000`, `LO = 0` (R13). -/
def minNum : Num128 := ofWords 0x8000000000000000 0

/-- Byte `i` of a platform's serialisation of a Num holds bits `8i+7 : 8i` (R45, D9). PRESUMED by the spec's own mark G1;
no access of the block (log 15). -/
def leByte (n : Num128) (i : Nat) : Byte := n.extractLsb' (8 * i) 8

/-- A Num as 16 bytes in little-endian order (R45; log 15). -/
def leBytes (n : Num128) : List Byte := (List.range 16).map (leByte n)

/-- The Num of bytes in little-endian order: byte 0 is the least significant (R45; log 15). -/
def ofLeBytes (bs : List Byte) : Num128 :=
  BitVec.ofNat 128 (bs.foldr (fun b acc => b.toNat + 256 * acc) 0)

end Sys2Proof.Machine
end

