-- ==== Sys2Proof/Machine/Flags.lean ====
section
/-! DEFINITION. The block stores no flags (R27). Here are the carries inside the negator and the adder, which do not outlive
a command (R31), and the sign output, which is computed from ACC at all times. -/

namespace Sys2Proof.Machine

/-- The adder's carry into HI: `(sum <u LO) ? 1 : 0` (R91). -/
def addCarry (sum lo : Lane) : Lane := if sum < lo then 1 else 0

/-- The negator's carry into HI: `(LO = 0) ? 1 : 0` (R90). -/
def negCarry (lo : Lane) : Lane := if lo = 0 then 1 else 0

/-- `sign(ACC)`: 0, -1 or +1 (R27). -/
def sign (n : Num128) : Int :=
  if hiWord n = 0 ∧ loWord n = 0 then 0 else if (hiWord n).msb then -1 else 1

/-- The 2-bit output port SIGN: the sign as a two's-complement number (R28). -/
def signPort (n : Num128) : BitVec 2 := BitVec.ofInt 2 (sign n)

end Sys2Proof.Machine
end

