-- ==== Sys2Proof/Machine/Arith.lean ====
section
/-! DEFINITION. The three arithmetic units as functions on a Num: the negator (R90), the adder (R91) and the multiplier
(R100). -/

namespace Sys2Proof.Machine

/-- The negator's mechanism, word by word (R90). -/
def negNum (n : Num128) : Num128 :=
  let lo1 : Lane := ~~~(loWord n) + 1
  let hi1 : Lane := ~~~(hiWord n) + negCarry (loWord n)
  ofWords hi1 lo1

/-- The adder's mechanism: the increment goes into the low word, and a carry of 1 into the high word (R91). "Nothing is
subtracted from HI when `delta[63] = 1`" (R91, R94, decision D10). -/
def addNum (n : Num128) (delta : Lane) : Num128 :=
  let sum : Lane := loWord n + delta
  ofWords (hiWord n + addCarry sum (loWord n)) sum

/-- The truncating multiplier: `trunc_128(uint_128(a) × uint_128(b))` (R100). -/
def mulNum (a b : Num128) : Num128 := BitVec.ofNat 128 (a.toNat * b.toNat)

end Sys2Proof.Machine
end

