-- ==== Sys2Proof/Machine/Rom.lean ====
section
/-! DEFINITION. The ScaleTable ROM (20_memory.md R40 to R44, R48), HI and LO of each entry as the table of R41 gives them. It
is configuration, not state (R21; log 4): "no command alters" it, and reset does not change it (R44). -/

namespace Sys2Proof.Machine

/-- ROM entries 0 to 12 (R41). -/
def scaleTableLow : List Num128 :=
  [ ofWords 0x0000000000000000 0x0000000000000001,
    ofWords 0x0000000000000000 0x000000000000000A,
    ofWords 0x0000000000000000 0x0000000000000064,
    ofWords 0x0000000000000000 0x00000000000003E8,
    ofWords 0x0000000000000000 0x0000000000002710,
    ofWords 0x0000000000000000 0x00000000000186A0,
    ofWords 0x0000000000000000 0x00000000000F4240,
    ofWords 0x0000000000000000 0x0000000000989680,
    ofWords 0x0000000000000000 0x0000000005F5E100,
    ofWords 0x0000000000000000 0x000000003B9ACA00,
    ofWords 0x0000000000000000 0x00000002540BE400,
    ofWords 0x0000000000000000 0x000000174876E800,
    ofWords 0x0000000000000000 0x000000E8D4A51000 ]

/-- ROM entries 13 to 25 (R41). -/
def scaleTableMid : List Num128 :=
  [ ofWords 0x0000000000000000 0x000009184E72A000,
    ofWords 0x0000000000000000 0x00005AF3107A4000,
    ofWords 0x0000000000000000 0x00038D7EA4C68000,
    ofWords 0x0000000000000000 0x002386F26FC10000,
    ofWords 0x0000000000000000 0x016345785D8A0000,
    ofWords 0x0000000000000000 0x0DE0B6B3A7640000,
    ofWords 0x0000000000000000 0x8AC7230489E80000,
    ofWords 0x0000000000000005 0x6BC75E2D63100000,
    ofWords 0x0000000000000036 0x35C9ADC5DEA00000,
    ofWords 0x000000000000021E 0x19E0C9BAB2400000,
    ofWords 0x000000000000152D 0x02C7E14AF6800000,
    ofWords 0x000000000000D3C2 0x1BCECCEDA1000000,
    ofWords 0x0000000000084595 0x161401484A000000 ]

/-- ROM entries 26 to 38 (R41). -/
def scaleTableHigh : List Num128 :=
  [ ofWords 0x000000000052B7D2 0xDCC80CD2E4000000,
    ofWords 0x00000000033B2E3C 0x9FD0803CE8000000,
    ofWords 0x00000000204FCE5E 0x3E25026110000000,
    ofWords 0x00000001431E0FAE 0x6D7217CAA0000000,
    ofWords 0x0000000C9F2C9CD0 0x4674EDEA40000000,
    ofWords 0x0000007E37BE2022 0xC0914B2680000000,
    ofWords 0x000004EE2D6D415B 0x85ACEF8100000000,
    ofWords 0x0000314DC6448D93 0x38C15B0A00000000,
    ofWords 0x0001ED09BEAD87C0 0x378D8E6400000000,
    ofWords 0x0013426172C74D82 0x2B878FE800000000,
    ofWords 0x00C097CE7BC90715 0xB34B9F1000000000,
    ofWords 0x0785EE10D5DA46D9 0x00F436A000000000,
    ofWords 0x4B3B4CA85A86C47A 0x098A224000000000 ]

/-- `ROM[0..38]` (R41). -/
def scaleTable : List Num128 := scaleTableLow ++ scaleTableMid ++ scaleTableHigh

/-- A ROM read: `ROM[k]` for `0 ≤ k ≤ 38`; for `k > 38` "the read does not take place" (R42, R48). -/
def romRead (k : Nat) : Option Num128 := scaleTable[k]?

end Sys2Proof.Machine
end

