-- ==== Sys2Proof/Machine/State.lean ====
section
/-! DEFINITION. The state of the block as plain data (10_state.md), the fault causes of 60_exceptions.md, and the
outcomes of a step. The ScaleTable ROM is configuration by R21 and stands in Machine/Rom.lean (log 4); the clocked port's
own registers stand in Machine/Port.lean (log 5). -/

namespace Sys2Proof.Machine

/-- The fault causes of R121, as STATUS.CAUSE records them (R29). A fault of the SPEC is recorded in STATUS and the block
goes on (R122): it is a next state, not a `Fault` below. -/
inductive Cause where
  /-- Raised by LDP10, MULP10 and SHADD when `K > 38` (R121). -/
  | scaleOutOfRange
  /-- Raised by any header that R65 does not decode (R121). -/
  | illegalCommand
  deriving DecidableEq, Repr

/-- What the host does at the command port, one event at a time: it presents a command, or it resets the block by the
sequence of R141 (log 3). -/
inductive PortEvent where
  | command (c : Command)
  | reset
  deriving DecidableEq, Repr

/-- Reasons for the machine to stop with a fault. None: "The block does not stop after a fault" (R122), and no other
behaviour of the spec stops it (log 11). -/
inductive Fault : Type
  deriving DecidableEq, Repr

/-- Reasons for the model to give no meaning. -/
inductive Refusal where
  /-- Raised by an arm of `exec` whose instruction has no meaning yet; safe. No arm raises it: every instruction of the
  opcode table has its meaning. -/
  | notModelled (mnemonic : String)
  deriving DecidableEq, Repr

/-- The architectural state (R20). -/
structure State where
  /-- The 128-bit accumulator `ACC = HI : LO` (R22). -/
  acc : Num128
  /-- The 8-bit register STATUS (R29). -/
  status : Byte
  /-- THE MODEL'S OWN FIELD (DESIGN CHOICE, log 1): what the host presents from here on, oldest first. R21 and R26: the
  command sequence is the host's input. -/
  stream : List PortEvent
  deriving DecidableEq, Repr

/-- The state after reset (R32, R141): ACC is 0 and STATUS is 0x00. The host has presented nothing (log 1). -/
def State.reset : State := { acc := 0, status := 0, stream := [] }

/-- What a meaning and a step answer. -/
abbrev Result := Host.Outcome State Fault Refusal

/-- The output ports that show ACC and STATUS (R60). -/
structure Outputs where
  accHi : Lane
  accLo : Lane
  sign : BitVec 2
  statusOut : Byte
  deriving DecidableEq, Repr

end Sys2Proof.Machine
end

