-- ==== Sys2Proof/Machine/Ops.lean ====
section
/-! DEFINITION. The shared operations over the registers: writing ACC, the fields of STATUS, raising a fault (R122), reset
(R141), the scale-index commands' ROM access (R42), and the output ports (R60). -/

namespace Sys2Proof.Machine

/-- Write ACC, all 128 bits at once (R22, R47). -/
def State.writeAcc (s : State) (n : Num128) : State := { s with acc := n }

/-- STATUS.CAUSE codes (R29, R121). -/
def Cause.code : Cause → BitVec 2
  | .scaleOutOfRange => 0b01
  | .illegalCommand => 0b10

/-- STATUS.ERR, bit 0 (R29). -/
def statusErr (st : Byte) : Bool := st.getLsbD 0

/-- STATUS.CAUSE, bits 2:1 (R29). -/
def statusCause (st : Byte) : BitVec 2 := st.extractLsb' 1 2

/-- A STATUS value from its fields, with bits 7:3 at their hardwired 0 (R29). -/
def statusWord (err : Bool) (cause : BitVec 2) : Byte := 0#5 ++ cause ++ BitVec.ofBool err

/-- What STATUS_OUT shows: bits 7:3 are hardwired 0 (R29; log 6). -/
def statusRead (st : Byte) : Byte := st &&& 0x07

/-- THE EFFECT OF A FAULT (R122): ACC is not written; the first fault since reset sets ERR and CAUSE, and a later one
leaves STATUS unchanged. There is no trap entry and no return from one (R125): the block goes on with the next command. -/
def State.raise (s : State) (c : Cause) : State :=
  if statusErr s.status = false then { s with status := statusWord true c.code } else s

/-- What reset does to the registers (R141); the host's input stream is no state of the block. -/
def State.applyReset (s : State) : State := { s with acc := 0, status := 0 }

/-- The K-using commands' shared form (R42, R84, R101, R102, R123): `K > 38` raises ScaleOutOfRange before any write;
otherwise ACC takes the value the command computes from `ROM[k]`. -/
def State.withScale (s : State) (k : Nat) (f : Num128 → Num128) : Result :=
  match romRead k with
  | none => .next (s.raise .scaleOutOfRange)
  | some p => .next (s.writeAcc (f p))

/-- The output ports ACC_HI, ACC_LO, SIGN and STATUS_OUT (R25, R28, R29, R60). -/
def State.outputs (s : State) : Outputs :=
  { accHi := hiWord s.acc, accLo := loWord s.acc, sign := signPort s.acc, statusOut := statusRead s.status }

end Sys2Proof.Machine
end

