-- ==== Sys2Proof/Machine/AddNeg.lean ====
section
/-! DEFINITION. The negator and the adder (41_addneg.md). -/

namespace Sys2Proof.Machine

/-- NEG (R90): ACC takes its two's-complement negation. -/
def execNeg (s : State) : Result := .next (s.writeAcc (negNum s.acc))

/-- ADD (R91): the 64-bit increment goes into LO with a carry into HI, for all 2^64 increments (R94, D10). -/
def execAdd (delta : Lane) (s : State) : Result := .next (s.writeAcc (addNum s.acc delta))

end Sys2Proof.Machine
end

