-- ==== Sys2Proof/Machine/Loads.lean ====
section
/-! DEFINITION. The load commands (40_load.md). -/

namespace Sys2Proof.Machine

/-- NOP (R80): `(nothing)`. -/
def execNop (s : State) : Result := .next s

/-- LDU64 (R81): `HI <- 0; LO <- v`. -/
def execLdu64 (v : Lane) (s : State) : Result := .next (s.writeAcc (ofWords 0 v))

/-- LDI64 (R82): `HI` takes 64 copies of `v[63]`; `LO <- v`. -/
def execLdi64 (v : Lane) (s : State) : Result := .next (s.writeAcc (ofWords (signWord v) v))

/-- LD128 (R83): `HI <- hi; LO <- lo`. -/
def execLd128 (hi lo : Lane) (s : State) : Result := .next (s.writeAcc (ofWords hi lo))

/-- LDP10 (R84): `ACC <- ROM[k]`, or ScaleOutOfRange when `k > 38`. -/
def execLdp10 (k : Nat) (s : State) : Result := s.withScale k fun p => p

end Sys2Proof.Machine
end

