-- ==== Sys2Proof/Machine/Mul.lean ====
section
/-! DEFINITION. The multiplier and the multiply-by-power-of-ten unit (42_mul.md). -/

namespace Sys2Proof.Machine

/-- MUL (R100): `ACC <- trunc_128(uint_128(ACC) × uint_128(OP))` with `OP = CMD_OPH : CMD_OPL`. -/
def execMul (hi lo : Lane) (s : State) : Result := .next (s.writeAcc (mulNum s.acc (ofWords hi lo)))

/-- MULP10 (R101): MUL with `OP = ROM[k]`, or ScaleOutOfRange when `k > 38`. -/
def execMulp10 (k : Nat) (s : State) : Result := s.withScale k fun p => mulNum s.acc p

/-- SHADD (R102): `t` is the product as MULP10 computes it, and the chunk is added to `t` as ADD adds it, in one step. -/
def execShadd (k : Nat) (chunk : Lane) (s : State) : Result :=
  s.withScale k fun p => addNum (mulNum s.acc p) chunk

end Sys2Proof.Machine
end

