-- ==== Sys2Proof/Machine/Dispatch.lean ====
section
/-! DEFINITION. One arm per constructor of `Instr`: each command's meaning. -/

namespace Sys2Proof.Machine

/-- The effect of one decoded command (R12). -/
def exec (i : Instr) (s : State) : Host.Outcome State Fault Refusal :=
  match i with
  | .nop => Sys2Proof.Machine.execNop s
  | .ldu64 v => Sys2Proof.Machine.execLdu64 v s
  | .ldi64 v => Sys2Proof.Machine.execLdi64 v s
  | .ld128 hi lo => Sys2Proof.Machine.execLd128 hi lo s
  | .ldp10 k => Sys2Proof.Machine.execLdp10 k s
  | .neg => Sys2Proof.Machine.execNeg s
  | .add delta => Sys2Proof.Machine.execAdd delta s
  | .mul hi lo => Sys2Proof.Machine.execMul hi lo s
  | .mulp10 k => Sys2Proof.Machine.execMulp10 k s
  | .shadd k chunk => Sys2Proof.Machine.execShadd k chunk s

end Sys2Proof.Machine
end

