-- ==== Sys2Proof/Machine/Issue.lean ====
section
/-! DEFINITION. What the command sequencer does with one event of the host's stream (R50, R147). -/

namespace Sys2Proof.Machine

/-- One accepted command (R147): decoding comes first (R124); a header that does not decode raises IllegalCommand (R65,
R121), any other runs by its rule. -/
def runCommand (c : Command) (s : State) : Result :=
  match decode c with
  | .ok i => exec i s
  | .error _ => .next (s.raise .illegalCommand)

/-- Nothing is presented: the block idles and "holds ACC and STATUS unchanged" (R133; log 2). -/
def idle (s : State) : Result := .next s

/-- The host resets the block (R141; log 3). -/
def takeReset (s : State) : Result := .next s.applyReset

end Sys2Proof.Machine
end

