-- ==== Sys2Proof/Machine/Step.lean ====
section
/-! DEFINITION. One step of the block: "A model steps once per accepted command and applies that command's rule" (R147). -/

namespace Sys2Proof.Machine

/-- The block takes the oldest event of the host's stream, in order (R26, R50); with none it idles (R133). -/
def step (s : State) : Host.Outcome State Fault Refusal :=
  match s.stream with
  | [] => idle s
  | .reset :: rest => takeReset { s with stream := rest }
  | .command c :: rest => runCommand c { s with stream := rest }

/-- The state with the command of an opcode-table word put where `step` takes its next event: at the head of the host's
stream (log 1). -/
def State.withFetchWord (s : State) (nbits w : Nat) : State :=
  { s with stream := .command (commandOfTableWord nbits w) :: s.stream }

end Sys2Proof.Machine
end

