-- ==== Sys2Proof/Machine/Assembler.lean ====
section
/-! DEFINITION. The assembly notation and the pseudo-commands (30_encoding.md R68, R69). Notation only (D17): no step of the
block depends on it. Details the spec leaves open are in log 14. -/

namespace Sys2Proof.Machine

/-- An operand as written: a scale index `k`, or an immediate `#n` (R68). -/
inductive Arg where
  | index (k : Nat)
  | imm (n : Int)
  deriving DecidableEq, Repr

/-- The names a line may begin with: the ten commands (R64) and the pseudo-commands with a name of their own (R69). -/
inductive Mnemonic where
  | op (o : Op)
  | clr | ldmin | mul10
  deriving DecidableEq, Repr

/-- What one line assembles to. -/
inductive Assembled where
  /-- Nothing but white space and a comment. -/
  | blank
  | command (i : Instr)
  /-- No form of R68 or R69, or an operand outside its range. -/
  | refused
  deriving DecidableEq, Repr

/-- `-2^63 ≤ n < 2^64`: the immediates of LDI64, ADD and SHADD (R68). DESIGN CHOICE, safe (log 14): each of the two
64-bit immediates of LD128 and MUL has the same range. -/
def fitsLane (n : Int) : Bool := decide (-2 ^ 63 ≤ n ∧ n < 2 ^ 64)

/-- `-2^127 ≤ v < 2^128`: the one immediate of the pseudo-forms `LD128 #v` and `MUL #v` (R69). -/
def fitsNum (v : Int) : Bool := decide (-2 ^ 127 ≤ v ∧ v < 2 ^ 128)

/-- `trunc_64(n)` (R10, R68). -/
def trunc64 (n : Int) : Lane := BitVec.ofInt 64 n

/-- `trunc_128(v)[127:64]` (R69). -/
def truncHi (v : Int) : Lane := (BitVec.ofInt 128 v).extractLsb' 64 64

/-- `trunc_128(v)[63:0]` (R69). -/
def truncLo (v : Int) : Lane := (BitVec.ofInt 128 v).extractLsb' 0 64

/-- "An assembler refuses `k > 255` ... It accepts `39 ≤ k ≤ 255`" (R68). -/
def fitsK (k : Nat) : Bool := decide (k ≤ 255)

/-- Keep an instruction if its operands are in range. -/
def guarded (ok : Bool) (i : Instr) : Option Instr := if ok then some i else none

/-- The forms of R68 and the expansions of R69. -/
def assembleArgs : Mnemonic → List Arg → Option Instr
  | .op .nop, [] => some .nop
  | .op .ldu64, [.imm n] => guarded (decide (0 ≤ n ∧ n < 2 ^ 64)) (.ldu64 (trunc64 n))
  | .op .ldi64, [.imm n] => guarded (fitsLane n) (.ldi64 (trunc64 n))
  | .op .ld128, [.imm hi, .imm lo] => guarded (fitsLane hi && fitsLane lo) (.ld128 (trunc64 hi) (trunc64 lo))
  | .op .ld128, [.imm v] => guarded (fitsNum v) (.ld128 (truncHi v) (truncLo v))
  | .op .ldp10, [.index k] => guarded (fitsK k) (.ldp10 k)
  | .op .neg, [] => some .neg
  | .op .add, [.imm n] => guarded (fitsLane n) (.add (trunc64 n))
  | .op .mul, [.imm hi, .imm lo] => guarded (fitsLane hi && fitsLane lo) (.mul (trunc64 hi) (trunc64 lo))
  | .op .mul, [.imm v] => guarded (fitsNum v) (.mul (truncHi v) (truncLo v))
  | .op .mulp10, [.index k] => guarded (fitsK k) (.mulp10 k)
  | .op .shadd, [.index k, .imm n] => guarded (fitsK k && fitsLane n) (.shadd k (trunc64 n))
  | .clr, [] => some (.ldu64 0)
  | .ldmin, [] => some (.ld128 0x8000000000000000 0)
  | .mul10, [] => some (.mulp10 1)
  | _, _ => none

/-- The spelling of each name (R68, R69). -/
def mnemonicNames : List (List Char × Mnemonic) :=
  [ ("NOP".toList, .op .nop), ("LDU64".toList, .op .ldu64), ("LDI64".toList, .op .ldi64),
    ("LD128".toList, .op .ld128), ("LDP10".toList, .op .ldp10), ("NEG".toList, .op .neg),
    ("ADD".toList, .op .add), ("MUL".toList, .op .mul), ("MULP10".toList, .op .mulp10),
    ("SHADD".toList, .op .shadd), ("CLR".toList, .clr), ("LDMIN".toList, .ldmin), ("MUL10".toList, .mul10) ]

/-- The name a word spells. -/
def readMnemonic (w : List Char) : Option Mnemonic := (mnemonicNames.find? fun r => r.1 == w).map Prod.snd

/-- White space between the parts of a line (log 14). -/
def isBlank (c : Char) : Bool := c == ' ' || c == '\t'

/-- A text without the white space at its two ends. -/
def trimBlanks (cs : List Char) : List Char := ((cs.dropWhile isBlank).reverse.dropWhile isBlank).reverse

/-- The parts of a text between commas. -/
def splitCommas (cs : List Char) : List (List Char) :=
  cs.foldr (fun c acc => if c = ',' then [] :: acc else match acc with
    | [] => [[c]]
    | w :: ws => (c :: w) :: ws) [[]]

/-- A digit's value: decimal, and for base 16 letters of either case as well (log 14). -/
def digitValue (base : Nat) (c : Char) : Option Nat :=
  let d :=
    if '0' ≤ c ∧ c ≤ '9' then c.toNat - 48
    else if 'a' ≤ c ∧ c ≤ 'f' then c.toNat - 87
    else if 'A' ≤ c ∧ c ≤ 'F' then c.toNat - 55
    else base
  if d < base then some d else none

/-- The digits read so far, with one more. -/
def pushDigit (base : Nat) (acc : Option Nat) (c : Char) : Option Nat :=
  match acc, digitValue base c with
  | some n, some d => some (n * base + d)
  | _, _ => none

/-- A number of one digit or more. -/
def readNat (base : Nat) (cs : List Char) : Option Nat :=
  if cs.isEmpty then none else cs.foldl (pushDigit base) (some 0)

/-- A decimal integer, which may carry a sign, or a `0x` hex literal (R68). -/
def readInt : List Char → Option Int
  | '-' :: cs => (readNat 10 cs).map fun n => -(n : Int)
  | '+' :: cs => (readNat 10 cs).map fun n => (n : Int)
  | '0' :: 'x' :: cs => (readNat 16 cs).map fun n => (n : Int)
  | cs => (readNat 10 cs).map fun n => (n : Int)

/-- An operand: `#n`, or a scale index "written without `#`" (R68). -/
def readArg : List Char → Option Arg
  | '#' :: cs => (readInt cs).map .imm
  | cs => (readNat 10 cs).map .index

/-- The operands after the name, separated by commas (R68). -/
def readArgs (cs : List Char) : Option (List Arg) :=
  if cs.isEmpty then some [] else (splitCommas cs).mapM fun w => readArg (trimBlanks w)

/-- One line: `MNEMONIC [k] [, #imm[, #imm]]`, and a comment from `;` on (R68). -/
def assembleLine (line : List Char) : Assembled :=
  let cs := trimBlanks (line.takeWhile fun c => c != ';')
  if cs.isEmpty then .blank
  else
    let name := cs.takeWhile fun c => !isBlank c
    let rest := trimBlanks (cs.dropWhile fun c => !isBlank c)
    match readMnemonic name, readArgs rest with
    | some m, some args =>
      match assembleArgs m args with
      | some i => .command i
      | none => .refused
    | _, _ => .refused

end Sys2Proof.Machine
end

