-- ==== Sys2Proof/Machine/Limbs.lean ====
section
/-! DEFINITION. The source's 32-bit limb method of multiplication (R104): "informative, not architectural". The meaning of MUL
does not use it; a statement says that it gives the same value. -/

namespace Sys2Proof.Machine

/-- Limb `i` of a Num: bits `32i+31 : 32i`, limb 0 the least significant (R104). -/
def limb (n : Num128) (i : Nat) : Nat := (n.extractLsb' (32 * i) 32).toNat

/-- The pairs `(i, j)` with `i` in 0..3 and `j` in 0..3-i, in the order of the loops of R104. -/
def limbPairs : List (Nat × Nat) :=
  (List.range 4).flatMap fun i => (List.range (4 - i)).map fun j => (i, j)

/-- One term of the loops: `(a_i × b_j) << (32 × (i + j))` (R104). -/
def limbTerm (a b : Num128) (p : Nat × Nat) : Nat := limb a p.1 * limb b p.2 * 2 ^ (32 * (p.1 + p.2))

/-- The integer accumulator `r` after the loops of R104. -/
def limbSum (a b : Num128) : Nat := limbPairs.foldl (fun r p => r + limbTerm a b p) 0

/-- `trunc_128(r)` (R104). -/
def mulByLimbs (a b : Num128) : Num128 := BitVec.ofNat 128 (limbSum a b)

end Sys2Proof.Machine
end

