-- ==== Sys2Proof/Machine/System.lean ====
section
/-! DEFINITION. Around one block: several hosts on its port behind the platform's arbiter (R51), and several blocks on one
platform (R131). -/

namespace Sys2Proof.Machine

/-- The arbiter takes the next event of host `n`; none when that host presents nothing. -/
def grant (n : Nat) (hosts : List (List PortEvent)) : Option (PortEvent × List (List PortEvent)) :=
  match hosts[n]? with
  | some (e :: rest) => some (e, hosts.set n rest)
  | some [] => none
  | none => none

/-- The one sequence the block sees, each event with the host it came from (R51). `order` is the order in which the arbiter
serves the hosts; it is an argument, so that every interleaving of the hosts' streams is admitted (log 16). -/
def arbitrate : List Nat → List (List PortEvent) → List (Nat × PortEvent)
  | [], _ => []
  | n :: order, hosts =>
    match grant n hosts with
    | some (e, hosts') => (n, e) :: arbitrate order hosts'
    | none => arbitrate order hosts

/-- Several blocks, each with its own registers and its own command stream (R131). The ROM is the one constant they share. -/
structure System where
  blocks : List State
  deriving DecidableEq, Repr

/-- Block `n` takes one step, the others none: "steps them independently in any interleaving" (R131). No answer where there
is no block `n`, or where its step does not answer a next state. -/
def System.stepBlock (y : System) (n : Nat) : Option System :=
  match y.blocks[n]? with
  | none => none
  | some s =>
    match step s with
    | .next t => some { blocks := y.blocks.set n t }
    | .fault _ => none
    | .refused _ => none

end Sys2Proof.Machine
end

