-- ==== Sys2Proof/Machine/Port.lean ====
section
/-! DEFINITION. The clocked command port: pins, handshake, latency and reset at the level of clock edges (R60, R141, R144,
R145), for every choice of the open parameters of R7. `step` is the untimed semantics that R147 asks of a model; this
level adds what the ports show in between, and a statement says that the two agree. -/

namespace Sys2Proof.Machine

/-- The input ports as sampled at one rising edge of CLK (R60). -/
structure Pins where
  rst : Bool
  valid : Bool
  cmd : Command
  deriving DecidableEq, Repr

/-- The block between two edges: the registers, CMD_READY, the command in flight with the number of edges up to and
including its completing edge, and how many edges in a row have had RST = 1 (log 5). -/
structure Port where
  core : State
  ready : Bool
  inFlight : Option (Command × Nat)
  rstHeld : Nat
  deriving DecidableEq, Repr

/-- After a completed reset: the values of R32, nothing in flight, and CMD_READY = 1 (R141). -/
def Port.afterReset : Port := { core := State.reset, ready := true, inFlight := none, rstHeld := 0 }

/-- The registers once command `c` has completed. `runCommand` answers a next state for every command (a statement says
so), so the last two arms are never taken. -/
def complete (c : Command) (s : State) : State :=
  match runCommand c s with
  | .next t => t
  | .fault _ => s
  | .refused _ => s

/-- The acceptance condition: `RST = 0`, `CMD_VALID = 1` and `CMD_READY = 1` (R60, R144). CMD_READY is the value the port
shows up to the edge. DEDUCED, unsafe (log 7). -/
def Port.accepts (p : Port) (x : Pins) : Bool := !x.rst && x.valid && p.ready

/-- An edge with RST = 1 (R141): the registers take their reset values, any command in flight is abandoned, CMD_READY is 0. -/
def Port.resetEdge (p : Port) : Port :=
  { core := p.core.applyReset, ready := false, inFlight := none, rstHeld := p.rstHeld + 1 }

/-- An edge at which command `c` has `n` edges left, this one included (R145): at the last one the registers change and
CMD_READY is 1 from then on; before it CMD_READY is 0 and the registers keep the state before the command. -/
def Port.advance (p : Port) (c : Command) (n : Nat) : Port :=
  if n ≤ 1 then { core := complete c p.core, ready := true, inFlight := none, rstHeld := 0 }
  else { core := p.core, ready := false, inFlight := some (c, n - 1), rstHeld := 0 }

/-- An edge with RST = 0 at which nothing is in flight and nothing is accepted: the registers are held (R133), and a reset
that RST = 1 has held long enough is complete (R141). DEDUCED, unsafe (log 7): after a shorter pulse CMD_READY stays 0, and the edge that
completes a reset accepts nothing. -/
def Port.quietEdge (T : Config.Timing) (p : Port) : Port :=
  { p with ready := p.ready || decide (T.resetCycles ≤ p.rstHeld), rstHeld := 0 }

/-- One rising edge of CLK (R60). Reset takes priority over a command at the same edge (R124, R141). A command accepted at
edge `e` completes at edge `e + LAT_op - 1` (R145). -/
def Port.edge (T : Config.Timing) (p : Port) (x : Pins) : Port :=
  if x.rst then p.resetEdge
  else match p.inFlight with
    | some (c, n) => p.advance c n
    | none =>
      if p.accepts x then p.advance x.cmd (T.lat (opField x.cmd.hdr)) else p.quietEdge T

/-- The port after a sequence of edges. -/
def Port.run (T : Config.Timing) (p : Port) (xs : List Pins) : Port := xs.foldl (Port.edge T) p

/-- The commands accepted over a sequence of edges, in order (R144). -/
def Port.accepted (T : Config.Timing) : Port → List Pins → List Command
  | _, [] => []
  | p, x :: xs =>
    if p.accepts x then x.cmd :: Port.accepted T (p.edge T x) xs else Port.accepted T (p.edge T x) xs

/-- The command in flight, as a list of at most one. -/
def Port.unfinished (p : Port) : List Command := (p.inFlight.map Prod.fst).toList

/-- The output ports but for CMD_READY, which is `p.ready` (R60). They show the registers, so a command in flight is not
visible in them (R31, R145). -/
def Port.outputs (p : Port) : Outputs := p.core.outputs

/-- What holds of the port between edges from the first reset edge on: while a command is in flight CMD_READY is 0 (R145) and
the command has an edge left. -/
def Port.wf (p : Port) : Bool :=
  match p.inFlight with
  | none => true
  | some (_, n) => !p.ready && decide (1 ≤ n)

end Sys2Proof.Machine
end

