-- ==== Sys2Proof/Safety.lean ====
section
/-! DEFINITION. The terms in which claims speak of a safe run: a legal STATUS, no fault recorded, a value that fits, and the
host's contract for chunks. -/

namespace Sys2Proof.Machine

/-- STATUS holds what R29 allows: bits 7:3 are 0, `ERR = 0 ⇔ CAUSE = 0b00`, and CAUSE is never `0b11`. -/
abbrev statusLegal (st : Byte) : Prop :=
  st.extractLsb' 3 5 = 0 ∧ (statusErr st = false ↔ statusCause st = 0b00) ∧ statusCause st ≠ 0b11

/-- The STATUS of a state is legal (R29). -/
abbrev State.legal (s : State) : Prop := statusLegal s.status

/-- No fault since reset (R29 ERR). A claim about a run's result asks this of its last state (D6). -/
abbrev State.faultFree (s : State) : Prop := statusErr s.status = false

/-- The integers a Num denotes: [-2^127, 2^127) (R9, R22). -/
abbrev fits128 (v : Int) : Prop := -2 ^ 127 ≤ v ∧ v < 2 ^ 127

/-- The host's contract for one SHADD (R107): `1 ≤ k ≤ 18` digits, and `chunk` is a number of at most `k` digits. -/
abbrev chunkContract (k : Nat) (chunk : Lane) : Prop :=
  1 ≤ k ∧ k ≤ Config.chunkDigits ∧ chunk.toNat < 10 ^ k

end Sys2Proof.Machine
end

