-- ==== Sys2Proof/Certificates/Slice0/Obligations.lean ====
section
/-! DEFINITION. The statements about the model, from the numbered rules of spec/. Each is written with literal numbers and
plain bit-vector operations where the spec gives them, so that it can be read beside its rule. -/

open Sys2Proof Sys2Proof.Machine

/-! ### Decoding and encoding -/

/-- R65: which headers decode, and that every other one is illegal. `OP` is `h[15:8]` and `K` is `h[7:0]`. -/
def Obligations.HeadersThatDecode : Prop :=
  ∀ (h : BitVec 16) (oph opl : BitVec 64),
    (∃ i, decode ⟨h, oph, opl⟩ = .ok i) ↔
      (h.extractLsb' 8 8 ∈ [0x04, 0x0B, 0x0C] ∨
        (h.extractLsb' 8 8 ∈ [0x00, 0x01, 0x02, 0x03, 0x08, 0x09, 0x0A] ∧ h.extractLsb' 0 8 = 0))

/-- R65: "Exactly 3 × 256 + 7 = 775 headers decode to a command", 651 of them with a scale index of 39 or more, and the
remaining 64761 do not decode. -/
def Obligations.HeaderCounts : Prop :=
  headerCount (fun d => d.toOption.isSome) = 775 ∧
  headerCount (fun d => d.toOption.any fun i => decide (39 ≤ i.kValue)) = 651 ∧
  headerCount (fun d => d.toOption.isNone) = 64761

/-- R63: how each command's operands are assembled from K and the lanes, opcode by opcode; the lanes that a row calls
ignored are arbitrary on the left and absent on the right. -/
def Obligations.OperandAssembly : Prop :=
  ∀ (k : BitVec 8) (oph opl : BitVec 64),
    decode ⟨0x0000, oph, opl⟩ = .ok .nop ∧
    decode ⟨0x0100, oph, opl⟩ = .ok (.ldu64 opl) ∧
    decode ⟨0x0200, oph, opl⟩ = .ok (.ldi64 opl) ∧
    decode ⟨0x0300, oph, opl⟩ = .ok (.ld128 oph opl) ∧
    decode ⟨0x04#8 ++ k, oph, opl⟩ = .ok (.ldp10 k.toNat) ∧
    decode ⟨0x0800, oph, opl⟩ = .ok .neg ∧
    decode ⟨0x0900, oph, opl⟩ = .ok (.add opl) ∧
    decode ⟨0x0A00, oph, opl⟩ = .ok (.mul oph opl) ∧
    decode ⟨0x0B#8 ++ k, oph, opl⟩ = .ok (.mulp10 k.toNat) ∧
    decode ⟨0x0C#8 ++ k, oph, opl⟩ = .ok (.shadd k.toNat opl)

/-- Decoding is right on words written out from the tables of 95_test_vectors.md. -/
def Obligations.SampleWords : Prop :=
  decode ⟨0x0413, 0, 0⟩ = .ok (.ldp10 19) ∧
  decode ⟨0x0100, 0xDEADBEEF, 0x8000000000000000⟩ = .ok (.ldu64 0x8000000000000000) ∧
  decode ⟨0x0C12, 0, 0x0DE0B6B3A763FFFF⟩ = .ok (.shadd 18 999999999999999999) ∧
  decode ⟨0x0A00, 0xFFFFFFFFFFFFFFFF, 0xFFFFFFFFFFFFFFFB⟩ = .ok (.mul 0xFFFFFFFFFFFFFFFF 0xFFFFFFFFFFFFFFFB) ∧
  decode ⟨0x0801, 0, 0⟩ = .error (.nonzeroK .neg 1) ∧
  decode ⟨0x0500, 0, 0⟩ = .error (.undefinedOp 5)

/-- Decoding the encoding of a well-formed instruction gives it back, for all ten commands and every operand. The encoder
puts 0 on the lanes a command ignores (DESIGN CHOICE, log 8). -/
def Obligations.DecodeOfEncode : Prop :=
  ∀ i : Instr, i.wellFormed = true → decode (encode i) = .ok i

/-- What decodes is well formed, and encoding it again gives the same header and the same lanes, but for the lanes that the
command ignores (R61, R63), where the encoder puts 0 (DESIGN CHOICE, log 8). -/
def Obligations.EncodeOfDecode : Prop :=
  ∀ (c : Command) (i : Instr), decode c = .ok i →
    i.wellFormed = true ∧ (encode i).hdr = c.hdr ∧
    (i.op ∈ [.ld128, .mul] → (encode i).oph = c.oph) ∧
    (i.op ∈ [.ldu64, .ldi64, .ld128, .add, .mul, .shadd] → (encode i).opl = c.opl)

/-- R61: "A lane a command does not use is ignored": two transfers with one header that agree on the lanes the command uses do
the same to every state. -/
def Obligations.UnusedLanesIgnored : Prop :=
  ∀ (h : BitVec 16) (oph opl oph' opl' : BitVec 64) (s : State),
    (h ∈ [0x0300, 0x0A00] → oph = oph') →
    (h ∈ [0x0100, 0x0200, 0x0300, 0x0900, 0x0A00] ∨ h.extractLsb' 8 8 = 0x0C → opl = opl') →
    runCommand ⟨h, oph, opl⟩ s = runCommand ⟨h, oph', opl'⟩ s

/-! ### The step -/

/-- R12, R50: when the oldest event of the host's stream is a command that decodes to `i`, a step is `exec i` at the state with
that event taken from the stream. The stream is the model's own field (DESIGN CHOICE, log 1). -/
def Obligations.StepRunsDecodedCommand : Prop :=
  ∀ (s : State) (c : Command) (rest : List PortEvent) (i : Instr),
    s.stream = .command c :: rest → decode c = .ok i → step s = exec i { s with stream := rest }

/-- The step after an opcode-table word was placed runs the instruction it decodes to (DESIGN CHOICE, logs 1 and 9). -/
def Obligations.StepRunsPlacedWord : Prop :=
  ∀ (s : State) (nbits w : Nat) (i : Instr),
    decodeTableWord nbits w = some i → step (s.withFetchWord nbits w) = exec i s

/-- R65, R66, R121, R122: a header that does not decode is an IllegalCommand: the step answers a next state with ACC unchanged,
and STATUS is 0x05 if no fault was recorded before and unchanged otherwise. -/
def Obligations.StepRaisesIllegalCommand : Prop :=
  ∀ (s : State) (c : Command) (rest : List PortEvent),
    s.stream = .command c :: rest → (∀ i, decode c ≠ .ok i) →
    step s = .next
      { acc := s.acc, status := if s.status.getLsbD 0 = false then 0x05 else s.status, stream := rest }

/-- R141: when the host resets the block, ACC becomes 0 and STATUS 0x00. One reset sequence is one event of the stream
(log 3). -/
def Obligations.StepTakesReset : Prop :=
  ∀ (s : State) (rest : List PortEvent),
    s.stream = .reset :: rest → step s = .next { acc := 0, status := 0, stream := rest }

/-- R133: with no command presented the block idles. -/
def Obligations.StepIdles : Prop :=
  ∀ s : State, s.stream = [] → step s = .next s

/-- R122: "The block does not stop after a fault"; no step stops at all. -/
def Obligations.EveryStepCompletes : Prop :=
  ∀ s : State, ∃ t, step s = .next t

/-- R50: as many steps as the host has events run them all, in order; the registers they leave do not depend on what the host
presents later, and a longer sequence is the composition of its parts. -/
def Obligations.SequentialComposition : Prop :=
  ∀ (es fs : List PortEvent) (s : State), s.stream = es ++ fs →
    ∃ t : State, Host.Core.run Sys2Proof.core es.length ({ s with stream := es } : State) = .next ({ t with stream := [] } : State) ∧
      Host.Core.run Sys2Proof.core es.length s = .next ({ t with stream := fs } : State) ∧
      Host.Core.run Sys2Proof.core (es.length + fs.length) s =
        Host.Core.run Sys2Proof.core fs.length ({ t with stream := fs } : State)

/-! ### Loads -/

/-- R80: NOP. Its header is 0x0000, a header 0x00kk with kk ≠ 0 is IllegalCommand, and it changes nothing: not ACC, so not SIGN,
and not STATUS. -/
def Obligations.NopChangesNothing : Prop :=
  (∀ oph opl : BitVec 64, decode ⟨0x0000, oph, opl⟩ = .ok .nop) ∧
  (∀ (kk : BitVec 8) (oph opl : BitVec 64) (s : State), kk ≠ 0 →
    decode ⟨0x00#8 ++ kk, oph, opl⟩ = .error (.nonzeroK .nop kk) ∧
    runCommand ⟨0x00#8 ++ kk, oph, opl⟩ s =
      .next { s with status := if s.status.getLsbD 0 = false then 0x05 else s.status }) ∧
  (∀ s : State, exec .nop s = .next s)

/-- R81: LDU64. K must be 0. ACC is the zero extension of `v`; SIGN is 0 for `v = 0` and +1 otherwise, never -1; the value is `uint_64(v)`;
nothing else changes. -/
def Obligations.LoadUnsigned : Prop :=
  (∀ oph v : BitVec 64, decode ⟨0x0100, oph, v⟩ = .ok (.ldu64 v)) ∧
  (∀ (kk : BitVec 8) (oph opl : BitVec 64), kk ≠ 0 → decode ⟨0x01#8 ++ kk, oph, opl⟩ = .error (.nonzeroK .ldu64 kk)) ∧
  ∀ (v : BitVec 64) (s : State),
    exec (.ldu64 v) s = .next { s with acc := v.setWidth 128 } ∧
    hiWord (v.setWidth 128) = 0 ∧ loWord (v.setWidth 128) = v ∧
    (v.setWidth 128).toInt = v.toNat ∧
    signPort (v.setWidth 128) = if v = 0 then 0b00 else 0b01

/-- R82: LDI64. K must be 0. ACC is the sign extension of `v`; HI is all copies of `v[63]` and LO is `v`; the value is `sint_64(v)` and SIGN is
its mathematical sign; nothing else changes. -/
def Obligations.LoadSigned : Prop :=
  (∀ oph v : BitVec 64, decode ⟨0x0200, oph, v⟩ = .ok (.ldi64 v)) ∧
  (∀ (kk : BitVec 8) (oph opl : BitVec 64), kk ≠ 0 → decode ⟨0x02#8 ++ kk, oph, opl⟩ = .error (.nonzeroK .ldi64 kk)) ∧
  ∀ (v : BitVec 64) (s : State),
    exec (.ldi64 v) s = .next { s with acc := v.signExtend 128 } ∧
    hiWord (v.signExtend 128) = (if v.getLsbD 63 = true then 0xFFFFFFFFFFFFFFFF else 0) ∧
    loWord (v.signExtend 128) = v ∧
    (v.signExtend 128).toInt = v.toInt ∧
    sign (v.signExtend 128) = v.toInt.sign

/-- R83: LD128. K must be 0. ACC is `hi : lo`, for every bit pattern; nothing else changes. -/
def Obligations.LoadWords : Prop :=
  (∀ hi lo : BitVec 64, decode ⟨0x0300, hi, lo⟩ = .ok (.ld128 hi lo)) ∧
  (∀ (kk : BitVec 8) (oph opl : BitVec 64), kk ≠ 0 → decode ⟨0x03#8 ++ kk, oph, opl⟩ = .error (.nonzeroK .ld128 kk)) ∧
  (∀ (hi lo : BitVec 64) (s : State), exec (.ld128 hi lo) s = .next { s with acc := hi ++ lo }) ∧
  (∀ s : State, exec (.ld128 5421010862427522170 687399551400673280) s = .next { s with acc := BitVec.ofNat 128 (10 ^ 38) }) ∧
  ∀ hi lo : BitVec 64, hiWord (hi ++ lo) = hi ∧ loWord (hi ++ lo) = lo

/-- R84: LDP10. For `k ≤ 38` ACC becomes 10^k, the entry ROM[k], whose SIGN is +1, and nothing else changes. For a larger `k` it raises
ScaleOutOfRange: ACC is unchanged, and STATUS is 0x03 if no fault was recorded before and unchanged otherwise. -/
def Obligations.LoadPowerOfTen : Prop :=
  (∀ (k : BitVec 8) (oph opl : BitVec 64), decode ⟨0x04#8 ++ k, oph, opl⟩ = .ok (.ldp10 k.toNat)) ∧
  (∀ (k : Nat) (s : State), k ≤ 38 →
    exec (.ldp10 k) s = .next { s with acc := BitVec.ofNat 128 (10 ^ k) } ∧
    romRead k = some (BitVec.ofNat 128 (10 ^ k)) ∧ signPort (BitVec.ofNat 128 (10 ^ k)) = 0b01) ∧
  (∀ (k : Nat) (s : State), 38 < k →
    exec (.ldp10 k) s = .next { s with status := if s.status.getLsbD 0 = false then 0x03 else s.status })

/-! ### The ROM -/

/-- R43: the three properties of the ROM, and that it has entries 0..38 and no other (R42). "With no wrap at any k" is said on the
values as numbers. -/
def Obligations.RomProperties : Prop :=
  romRead 0 = some 1 ∧
  (∀ k p q, 1 ≤ k → k ≤ 38 → romRead (k - 1) = some p → romRead k = some q →
    q = BitVec.ofNat 128 (p.toNat * 10) ∧ p.toNat * 10 < 2 ^ 127) ∧
  (∀ p, romRead 38 = some p → p.toInt < 2 ^ 127 ∧ (2 : Int) ^ 127 < 10 ^ 39) ∧
  (∀ k, (romRead k).isSome = true ↔ k ≤ 38)

/-- R42: a read with an index of 0 to 38 returns the entry, 10^k; with an index above 38 it does not take place: each of the three
commands that read the ROM raises ScaleOutOfRange and leaves ACC unchanged, for every operand. -/
def Obligations.RomReadBounds : Prop :=
  (∀ k : Nat, k ≤ 38 → romRead k = some (BitVec.ofNat 128 (10 ^ k))) ∧
  (∀ k : Nat, 38 < k → romRead k = none) ∧
  ∀ (k : Nat) (chunk : BitVec 64) (s : State), 38 < k →
    ∀ i ∈ [Instr.ldp10 k, Instr.mulp10 k, Instr.shadd k chunk],
      exec i s = .next { s with status := if s.status.getLsbD 0 = false then 0x03 else s.status }

/-! ### The negator and the adder -/

/-- R90: NEG's mechanism word by word, its header (K must be 0), its signs, and nothing else changes. -/
def Obligations.NegMechanism : Prop :=
  (∀ oph opl : BitVec 64, decode ⟨0x0800, oph, opl⟩ = .ok .neg) ∧
  (∀ (kk : BitVec 8) (oph opl : BitVec 64), kk ≠ 0 → decode ⟨0x08#8 ++ kk, oph, opl⟩ = .error (.nonzeroK .neg kk)) ∧
  (∀ s : State, exec .neg s = .next { s with
    acc := (~~~(s.acc.extractLsb' 64 64) + (if s.acc.extractLsb' 0 64 = 0 then 1 else 0)) ++ (~~~(s.acc.extractLsb' 0 64) + 1) }) ∧
  (∀ s t : State, exec .neg s = .next t →
    (0 < s.acc.toInt → sign t.acc = -1) ∧
    (s.acc.toInt < 0 → s.acc ≠ 0x80000000000000000000000000000000 → sign t.acc = 1) ∧
    (s.acc = 0 → sign t.acc = 0) ∧
    (s.acc = 0x80000000000000000000000000000000 → sign t.acc = -1))

/-- R92: NEG is the 128-bit two's-complement negation, `trunc_128(2^128 - uint_128(ACC))`; its value is `-val(ACC)` for every ACC
except MIN, and MIN goes to MIN. -/
def Obligations.NegIsTwosComplement : Prop :=
  ∀ s : State,
    exec .neg s = .next { s with acc := BitVec.ofNat 128 (2 ^ 128 - s.acc.toNat) } ∧
    (s.acc ≠ 0x80000000000000000000000000000000 →
      (BitVec.ofNat 128 (2 ^ 128 - s.acc.toNat)).toInt = -s.acc.toInt) ∧
    (s.acc = 0x80000000000000000000000000000000 → BitVec.ofNat 128 (2 ^ 128 - s.acc.toNat) = s.acc)

/-- R93: two NEG commands restore every state, and one NEG leaves ACC unchanged exactly for 0 and MIN. -/
def Obligations.NegIsInvolution : Prop :=
  ∀ s : State, ∃ t, exec .neg s = .next t ∧ exec .neg t = .next s ∧
    (t.acc = s.acc ↔ s.acc = 0 ∨ s.acc = 0x80000000000000000000000000000000)

/-- R91: ADD's mechanism word by word, its header (K must be 0), and nothing else changes. The carry is "sum < lo". -/
def Obligations.AddMechanism : Prop :=
  (∀ oph delta : BitVec 64, decode ⟨0x0900, oph, delta⟩ = .ok (.add delta)) ∧
  (∀ (kk : BitVec 8) (oph opl : BitVec 64), kk ≠ 0 → decode ⟨0x09#8 ++ kk, oph, opl⟩ = .error (.nonzeroK .add kk)) ∧
  ∀ (delta : BitVec 64) (s : State), exec (.add delta) s = .next { s with
    acc := (s.acc.extractLsb' 64 64 +
        (if s.acc.extractLsb' 0 64 + delta < s.acc.extractLsb' 0 64 then 1 else 0)) ++
      (s.acc.extractLsb' 0 64 + delta) }

/-- R94: ADD adds `zext_128(delta)` modulo 2^128. With `delta[63] = 0` that is the signed sum, wrapped into [-2^127, 2^127); with
`delta[63] = 1` it is the signed sum plus 2^64, wrapped. No fault either way. -/
def Obligations.AddIsZeroExtendedSum : Prop :=
  ∀ (delta : BitVec 64) (s : State), ∃ t, exec (.add delta) s = .next t ∧
    t = { s with acc := BitVec.ofNat 128 (s.acc.toNat + delta.toNat) } ∧
    (delta.getLsbD 63 = false → t.acc.toInt = (s.acc.toInt + delta.toInt).bmod (2 ^ 128)) ∧
    (delta.getLsbD 63 = true → t.acc.toInt = (s.acc.toInt + delta.toInt + 2 ^ 64).bmod (2 ^ 128))

/-- R14, R95: every arithmetic command wraps: ACC takes the exact result modulo 2^128, STATUS records nothing, and no command
saturates. -/
def Obligations.ArithmeticWraps : Prop :=
  ∀ (s : State) (delta hi lo : BitVec 64) (k : Nat), k ≤ 38 →
    exec .neg s = .next { s with acc := BitVec.ofInt 128 (-s.acc.toInt) } ∧
    exec (.add delta) s = .next { s with acc := BitVec.ofInt 128 (s.acc.toInt + delta.toNat) } ∧
    exec (.mul hi lo) s = .next { s with acc := BitVec.ofInt 128 (s.acc.toInt * (hi ++ lo : BitVec 128).toInt) } ∧
    exec (.mulp10 k) s = .next { s with acc := BitVec.ofInt 128 (s.acc.toInt * 10 ^ k) } ∧
    exec (.shadd k delta) s = .next { s with acc := BitVec.ofInt 128 (s.acc.toInt * 10 ^ k + delta.toNat) }

/-! ### The multiplier and the multiply-by-power-of-ten unit -/

/-- R100: MUL (K must be 0) is the product modulo 2^128 of ACC and `CMD_OPH : CMD_OPL`, read as unsigned or as signed numbers; nothing else changes, and the corner cases the rule lists. -/
def Obligations.MulTruncates : Prop :=
  (∀ hi lo : BitVec 64, decode ⟨0x0A00, hi, lo⟩ = .ok (.mul hi lo)) ∧
  (∀ (kk : BitVec 8) (oph opl : BitVec 64), kk ≠ 0 → decode ⟨0x0A#8 ++ kk, oph, opl⟩ = .error (.nonzeroK .mul kk)) ∧
  (∀ (hi lo : BitVec 64) (s : State), exec (.mul hi lo) s =
    .next { s with acc := BitVec.ofNat 128 (s.acc.toNat * (hi.toNat * 2 ^ 64 + lo.toNat)) } ∧
    exec (.mul hi lo) s = .next { s with acc := BitVec.ofInt 128 (s.acc.toInt * (hi ++ lo : BitVec 128).toInt) } ∧
    (hi ++ lo = s.acc → exec (.mul hi lo) s = .next { s with acc := BitVec.ofNat 128 (s.acc.toNat ^ 2) })) ∧
  (∀ s : State,
    exec (.mul 0 0) s = .next { s with acc := 0 } ∧
    exec (.mul 0 1) s = .next s ∧
    exec (.mul 0xFFFFFFFFFFFFFFFF 0xFFFFFFFFFFFFFFFF) s = exec .neg s ∧
    exec (.mul 0xFFFFFFFFFFFFFFFF 0xFFFFFFFFFFFFFFFF) (s.writeAcc 0x80000000000000000000000000000000) =
      .next (s.writeAcc 0x80000000000000000000000000000000) ∧
    exec (.mul 0 2) (s.writeAcc 0x80000000000000000000000000000000) = .next (s.writeAcc 0) ∧
    exec (.mul 0 2) (s.writeAcc 0x7FFFFFFFFFFFFFFFFFFFFFFFFFFFFFFF) = .next (s.writeAcc (-2)) ∧
    exec (.mul 0 0xFFFFFFFFFFFFFFFF) (s.writeAcc 0xFFFFFFFFFFFFFFFF) =
      .next (s.writeAcc 0xFFFFFFFFFFFFFFFE0000000000000001) ∧
    exec (.mul 1 0) (s.writeAcc 0x10000000000000000) = .next (s.writeAcc 0))

/-- R103, R106: the truncated product does not depend on signedness, and when the true signed product fits it is the value of ACC,
with the sign of the product. -/
def Obligations.MulSignedAndUnsignedAgree : Prop :=
  ∀ (hi lo : BitVec 64) (s : State), ∃ t, exec (.mul hi lo) s = .next t ∧
    t.acc = BitVec.ofNat 128 (s.acc.toNat * (hi ++ lo : BitVec 128).toNat) ∧
    t.acc = BitVec.ofInt 128 (s.acc.toInt * (hi ++ lo : BitVec 128).toInt) ∧
    (fits128 (s.acc.toInt * (hi ++ lo : BitVec 128).toInt) →
      t.acc.toInt = s.acc.toInt * (hi ++ lo : BitVec 128).toInt ∧
      sign t.acc = s.acc.toInt.sign * (hi ++ lo : BitVec 128).toInt.sign)

/-- R104: the source's 32-bit limb method gives the value of MUL. -/
def Obligations.LimbMethodAgrees : Prop :=
  ∀ (hi lo : BitVec 64) (s : State), exec (.mul hi lo) s = .next { s with acc := mulByLimbs s.acc (hi ++ lo) }

/-- R105: `MULP10 0` and `MUL #0, #1` leave every state unchanged. -/
def Obligations.MultiplyByOneIsIdentity : Prop :=
  ∀ s : State, exec (.mulp10 0) s = .next s ∧ exec (.mul 0 1) s = .next s

/-- R101: MULP10 is MUL with `OP = ROM[k]` for `k ≤ 38`, and ScaleOutOfRange with ACC unchanged otherwise. -/
def Obligations.MultiplyByPowerOfTen : Prop :=
  (∀ (k : BitVec 8) (oph opl : BitVec 64), decode ⟨0x0B#8 ++ k, oph, opl⟩ = .ok (.mulp10 k.toNat)) ∧
  (∀ (k : Nat) (s : State), k ≤ 38 → ∃ p, romRead k = some p ∧
    exec (.mulp10 k) s = .next { s with acc := BitVec.ofNat 128 (s.acc.toNat * p.toNat) } ∧
    exec (.mulp10 k) s = exec (.mul (p.extractLsb' 64 64) (p.extractLsb' 0 64)) s) ∧
  (∀ (k : Nat) (s : State), 38 < k →
    exec (.mulp10 k) s = .next { s with status := if s.status.getLsbD 0 = false then 0x03 else s.status })

/-- R102: SHADD is MULP10 and then ADD in one step for `k ≤ 38`, so `ACC × 10^k + uint_64(chunk)` modulo 2^128; with `k = 0` it is ADD;
otherwise it is ScaleOutOfRange with ACC unchanged. -/
def Obligations.ShiftAndAdd : Prop :=
  (∀ (k : BitVec 8) (oph chunk : BitVec 64), decode ⟨0x0C#8 ++ k, oph, chunk⟩ = .ok (.shadd k.toNat chunk)) ∧
  (∀ (k : Nat) (chunk : BitVec 64) (s : State), k ≤ 38 → ∃ t, exec (.mulp10 k) s = .next t ∧
    exec (.shadd k chunk) s = exec (.add chunk) t ∧
    exec (.shadd k chunk) s = .next { s with acc := BitVec.ofNat 128 (s.acc.toNat * 10 ^ k + chunk.toNat) }) ∧
  (∀ (chunk : BitVec 64) (s : State), exec (.shadd 0 chunk) s = exec (.add chunk) s) ∧
  (∀ (k : Nat) (chunk : BitVec 64) (s : State), 38 < k →
    exec (.shadd k chunk) s = .next { s with status := if s.status.getLsbD 0 = false then 0x03 else s.status })

/-- R107: under the host's contract the chunk step is exact whenever the result fits, and two chunk steps give the integer of the
concatenated digits, `A × 10^(m+n) + c1 × 10^n + c2`. -/
def Obligations.ChunkStepsConcatenate : Prop :=
  (∀ (k : Nat) (chunk : BitVec 64) (s : State), chunkContract k chunk → fits128 (s.acc.toInt * 10 ^ k + chunk.toNat) →
    chunk.getLsbD 63 = false ∧
    ∃ t, exec (.shadd k chunk) s = .next t ∧ t.acc.toInt = s.acc.toInt * 10 ^ k + chunk.toNat) ∧
  (∀ (m n : Nat) (c1 c2 : BitVec 64) (s : State), chunkContract m c1 → chunkContract n c2 →
    fits128 (s.acc.toInt * 10 ^ (m + n) + c1.toNat * 10 ^ n + c2.toNat) →
    ∃ t u, exec (.shadd m c1) s = .next t ∧ exec (.shadd n c2) t = .next u ∧
      u.acc.toInt = s.acc.toInt * 10 ^ (m + n) + c1.toNat * 10 ^ n + c2.toNat)

/-- R108: presenting the current ACC on the lanes computes the square modulo 2^128. -/
def Obligations.MulByOwnValueSquares : Prop :=
  ∀ s : State, exec (.mul s.outputs.accHi s.outputs.accLo) s =
    .next { s with acc := BitVec.ofNat 128 (s.acc.toNat ^ 2) }

/-! ### Faults and STATUS -/

/-- R122: the effect of a fault with cause `c`: ACC is not written; the first fault sets ERR and CAUSE, a later one leaves STATUS; and the
block goes on: whatever command comes next completes, and leaves STATUS as the fault left it. -/
def Obligations.FaultEffect : Prop :=
  ∀ (s : State) (c : Cause),
    (s.raise c).acc = s.acc ∧ (s.raise c).stream = s.stream ∧
    (s.status.getLsbD 0 = false →
      (s.raise c).status.getLsbD 0 = true ∧
      (s.raise c).status.extractLsb' 1 2 = (match c with | .scaleOutOfRange => 0b01 | .illegalCommand => 0b10)) ∧
    (s.status.getLsbD 0 = true → (s.raise c).status = s.status) ∧
    (∀ d : Command, ∃ t, runCommand d (s.raise c) = .next t ∧ t.status = (s.raise c).status)

/-- R121, R123, R124: which commands fault, with which cause, and that a faulting command writes nothing but STATUS while every other
command leaves STATUS alone. Decoding comes first: an illegal header is never ScaleOutOfRange. -/
def Obligations.FaultsArePreciseAndPrioritised : Prop :=
  ∀ (c : Command) (s : State), ∃ t, runCommand c s = .next t ∧ t.stream = s.stream ∧
    (if c.hdr.extractLsb' 8 8 ∈ [0x04, 0x0B, 0x0C] then
      if 38 < (c.hdr.extractLsb' 0 8).toNat then
        t.acc = s.acc ∧ t.status = if s.status.getLsbD 0 = false then 0x03 else s.status
      else t.status = s.status
    else if c.hdr.extractLsb' 8 8 ∈ [0x00, 0x01, 0x02, 0x03, 0x08, 0x09, 0x0A] ∧ c.hdr.extractLsb' 0 8 = 0 then
      t.status = s.status
    else t.acc = s.acc ∧ t.status = if s.status.getLsbD 0 = false then 0x05 else s.status)

/-- R122: "STATUS keeps the fault until reset, and no command clears it": once ERR is 1, a step that takes no reset leaves STATUS as it
is. -/
def Obligations.FaultIsSticky : Prop :=
  ∀ s t : State, statusErr s.status = true → (∀ rest, s.stream ≠ .reset :: rest) → step s = .next t → t.status = s.status

/-- R29: the legality of STATUS (bits 7:3 zero, `ERR = 0 ⇔ CAUSE = 0b00`, CAUSE never 0b11) is kept by every step. -/
def Obligations.StepKeepsStatusLegal : Prop :=
  ∀ s t : State, s.legal → step s = .next t → t.legal

/-- R32: STATUS is legal after reset. -/
def Obligations.ResetStatusIsLegal : Prop := State.reset.legal

/-- R29: STATUS_OUT shows ERR in bit 0 and CAUSE in bits 2:1, and its bits 7:3 read 0, in every state. -/
def Obligations.StatusOutFields : Prop :=
  ∀ s : State, s.outputs.statusOut.getLsbD 0 = statusErr s.status ∧
    s.outputs.statusOut.extractLsb' 1 2 = statusCause s.status ∧ s.outputs.statusOut.extractLsb' 3 5 = 0

/-- R12: a command "writes ACC, or it raises a fault, which writes STATUS. It writes nothing else": whatever the command word, the next
state is the state with ACC written or the state with one fault raised (R122), and nothing else differs; and what it leaves in ACC is a
function of ACC and the command word alone. -/
def Obligations.CommandWritesOneRegister : Prop :=
  ∀ (c : Command) (s : State), ∃ t, runCommand c s = .next t ∧
    ((∃ n : BitVec 128, t = { s with acc := n }) ∨ (∃ f : Cause, t = s.raise f)) ∧
    (∀ s' : State, s'.acc = s.acc → ∃ t', runCommand c s' = .next t' ∧ t'.acc = t.acc)

/-- R24: the load commands write ACC without reading it: from two states with the same STATUS they leave the same ACC, whatever ACC
was. -/
def Obligations.LoadsDoNotReadAcc : Prop :=
  ∀ (v hi lo : BitVec 64) (k : Nat) (s s' : State), k ≤ 38 →
    ∀ i ∈ [Instr.ldu64 v, Instr.ldi64 v, Instr.ld128 hi lo, Instr.ldp10 k],
      ∃ t t', exec i s = .next t ∧ exec i s' = .next t' ∧ t.acc = t'.acc

/-! ### ACC, SIGN and the output ports -/

/-- R9, R22: the value of a Num is `sint_64(HI) × 2^64 + uint_64(LO)` and equals the two's-complement reading of its 128 bits, which lies
in [-2^127, 2^127); two Nums are equal exactly when both words are. -/
def Obligations.NumValue : Prop :=
  (∀ n : BitVec 128, (n.extractLsb' 64 64).toInt * 2 ^ 64 + (n.extractLsb' 0 64).toNat = n.toInt ∧ fits128 n.toInt ∧
    numValue n = n.toInt) ∧
  ∀ a b : BitVec 128, a = b ↔ hiWord a = hiWord b ∧ loWord a = loWord b

/-- R27, R28: SIGN is the sign of the value: 0b00 for 0, 0b01 for positive, 0b11 for negative, and never 0b10; it differs
between two states only if ACC does. -/
def Obligations.SignOutput : Prop :=
  ∀ s : State,
    sign s.acc = (if s.acc.extractLsb' 64 64 = 0 ∧ s.acc.extractLsb' 0 64 = 0 then 0
      else if s.acc.getLsbD 127 = true then -1 else 1) ∧
    sign s.acc = s.acc.toInt.sign ∧
    s.outputs.sign = (if s.acc.toInt = 0 then 0b00 else if s.acc.toInt < 0 then 0b11 else 0b01) ∧
    s.outputs.sign ≠ 0b10 ∧
    (∀ t : State, t.acc = s.acc → t.outputs.sign = s.outputs.sign)

/-- R25: the output ports ACC_HI and ACC_LO are bits 127:64 and 63:0 of ACC. -/
def Obligations.OutputsShowAcc : Prop :=
  ∀ s : State, s.outputs.accHi = s.acc.extractLsb' 64 64 ∧ s.outputs.accLo = s.acc.extractLsb' 0 64 ∧
    (s.outputs.accHi ++ s.outputs.accLo : BitVec 128) = s.acc

/-- R32: the reset values: ACC 0, SIGN 0b00, ERR 0, CAUSE 0b00, bits 7:3 of STATUS 0; a reset edge leaves nothing in flight; and the ROM
holds the constants of R41 before and after, being no part of the state. -/
def Obligations.ResetValues : Prop :=
  (State.reset.acc = 0 ∧ State.reset.outputs.sign = 0b00 ∧ statusErr State.reset.status = false ∧
    statusCause State.reset.status = 0b00 ∧ State.reset.status.extractLsb' 3 5 = 0) ∧
  (∀ s : State, s.applyReset = { s with acc := 0, status := 0 }) ∧
  (∀ p : Port, p.resetEdge.inFlight = none ∧ p.resetEdge.core.acc = 0 ∧ p.resetEdge.core.status = 0) ∧
  (∀ k, k ≤ 38 → romRead k = some (BitVec.ofNat 128 (10 ^ k)))

/-- R45: byte `i` of a platform's serialisation holds bits `8i+7 : 8i`, and the 16 bytes give the Num back. Not an access of the block
(log 15). -/
def Obligations.LittleEndianBytes : Prop :=
  (∀ (n : BitVec 128) (i : Nat), i < 16 → (leBytes n)[i]? = some (n.extractLsb' (8 * i) 8)) ∧
  ∀ n : BitVec 128, ofLeBytes (leBytes n) = n

/-! ### The clocked port -/

/-- R141: at every edge with RST = 1 ACC and STATUS are reset, a command in flight is abandoned and CMD_READY is 0, whatever is presented;
and from ANY port state, so from power-up as well (R140), RST held for at least RESET_CYCLES edges and then 0 at one edge leaves the
port as it is after reset, with CMD_READY = 1. That this last edge accepts nothing, whatever it presents, and that the count of reset
edges is then 0, is the model's reading (DEDUCED, log 7). The stream field is the model's own (log 1). -/
def Obligations.PortReset : Prop :=
  ∀ (T : Config.Timing) (p : Port),
    (∀ x : Pins, x.rst = true → (p.edge T x).core = { p.core with acc := 0, status := 0 } ∧
      (p.edge T x).inFlight = none ∧ (p.edge T x).ready = false ∧ p.accepts x = false) ∧
    (∀ (xs : List Pins) (x : Pins), (∀ y ∈ xs, y.rst = true) → T.resetCycles ≤ xs.length → x.rst = false →
      p.run T (xs ++ [x]) = { Port.afterReset with core := { p.core with acc := 0, status := 0 } } ∧
      p.accepted T (xs ++ [x]) = [])

/-- R145: a command accepted at edge `e` completes at edge `e + LAT_op - 1`: before that edge CMD_READY is 0 and the registers are those before
the command, whatever the host drives; at that edge they change to what the command's rule gives, and CMD_READY is 1. That the completing
edge accepts no further command, whatever it presents, is the model's reading (DEDUCED, log 7), and so is a latency for a header with an
undefined OP (DEDUCED, log 12). -/
def Obligations.PortCompletion : Prop :=
  ∀ (T : Config.Timing) (p : Port) (x : Pins) (xs : List Pins),
    p.inFlight = none → p.accepts x = true → (∀ y ∈ xs, y.rst = false) →
    (xs.length + 1 < T.lat (opField x.cmd.hdr) →
      (p.run T (x :: xs)).core = p.core ∧ (p.run T (x :: xs)).ready = false) ∧
    (xs.length + 1 = T.lat (opField x.cmd.hdr) →
      runCommand x.cmd p.core = .next (p.run T (x :: xs)).core ∧ (p.run T (x :: xs)).ready = true ∧
      (p.run T (x :: xs)).inFlight = none)

/-- R60: the values on the input ports at an edge that accepts nothing have no effect; with nothing in flight and CMD_READY = 1 the block holds
its registers and stays ready (R133). -/
def Obligations.PortIgnoresUnacceptedInputs : Prop :=
  ∀ (T : Config.Timing) (p : Port) (x y : Pins), x.rst = false → y.rst = false →
    p.accepts x = false → p.accepts y = false →
    p.edge T x = p.edge T y ∧
    (p.inFlight = none → p.ready = true → (p.edge T x).core = p.core ∧ (p.edge T x).ready = true ∧ (p.edge T x).inFlight = none)

/-- While a command is in flight CMD_READY is 0 and it has an edge left: so after reset, and kept by every edge (R31, R145). -/
def Obligations.PortInvariant : Prop :=
  Port.afterReset.wf = true ∧ ∀ (T : Config.Timing) (p : Port) (x : Pins), p.wf = true → (p.edge T x).wf = true

/-- R50, R144, R145, R147: over any edges without reset, from a port with nothing in flight, the accepted commands are those that have
completed followed by at most one in flight, and the registers are what as many untimed steps on the completed commands give. For every
choice of the latencies and whatever the host drives. -/
def Obligations.ClockedPortRefinesStep : Prop :=
  ∀ (T : Config.Timing) (p : Port) (xs : List Pins), p.inFlight = none → (∀ y ∈ xs, y.rst = false) →
    ∃ done : List Command, p.accepted T xs = done ++ (p.run T xs).unfinished ∧
      Host.Core.run Sys2Proof.core done.length ({ p.core with stream := done.map PortEvent.command } : State) =
        .next ({ (p.run T xs).core with stream := [] } : State)

/-- R147: "Every claim holds for every choice of the latency parameters": two ports with the same registers, driven without reset under any
two timings and any two pin sequences, that accepted the same commands and have nothing in flight show the same outputs. -/
def Obligations.OutputsDoNotDependOnLatency : Prop :=
  ∀ (T T' : Config.Timing) (p p' : Port) (xs xs' : List Pins),
    p.core = p'.core → p.inFlight = none → p'.inFlight = none →
    (∀ y ∈ xs, y.rst = false) → (∀ y ∈ xs', y.rst = false) →
    p.accepted T xs = p'.accepted T' xs' →
    (p.run T xs).inFlight = none → (p'.run T' xs').inFlight = none →
    (p.run T xs).outputs = (p'.run T' xs').outputs

/-! ### Around the block -/

/-- R51: whatever order the arbiter serves the hosts in, the block sees each host's events in that host's order, none invented and none
skipped. The order is an argument (DESIGN CHOICE, log 16). -/
def Obligations.ArbiterKeepsEachHostsOrder : Prop :=
  ∀ (order : List Nat) (hosts : List (List PortEvent)) (n : Nat),
    ((arbitrate order hosts).filter fun e => e.1 == n).map Prod.snd <+: (hosts[n]?).getD []

/-- R131: blocks are independent agents: a step of one leaves every other as it is, and the steps of two blocks commute. -/
def Obligations.BlocksAreIndependent : Prop :=
  ∀ (y : System) (m n : Nat), m ≠ n →
    (∀ z, y.stepBlock m = some z → z.blocks[n]? = y.blocks[n]?) ∧
    (y.stepBlock m).bind (System.stepBlock · n) = (y.stepBlock n).bind (System.stepBlock · m) ∧
    (m < y.blocks.length → ∃ z, y.stepBlock m = some z)

/-! ### The assembler -/

/-- R68: what assembles fits its command word. For each form with an operand, exactly when it assembles and to what: the scale index of
LDP10, MULP10 and SHADD is kept as written and accepted up to 255, whether or not it is in the ROM, and refused above; LDU64 takes
0 ≤ n < 2^64; LDI64, ADD and SHADD take -2^63 ≤ n < 2^64, encoded as `trunc_64(n)`; LD128 and MUL take two words, for which that same
range is the model's choice (DESIGN CHOICE, log 14). -/
def Obligations.AssembledCommandsFit : Prop :=
  (∀ (m : Mnemonic) (args : List Arg) (i : Instr), assembleArgs m args = some i → i.wellFormed = true) ∧
  (∀ k : Nat, assembleArgs (.op .ldp10) [.index k] = (if k ≤ 255 then some (.ldp10 k) else none)) ∧
  (∀ k : Nat, assembleArgs (.op .mulp10) [.index k] = (if k ≤ 255 then some (.mulp10 k) else none)) ∧
  (∀ (k : Nat) (n : Int), assembleArgs (.op .shadd) [.index k, .imm n] =
    (if k ≤ 255 ∧ -2 ^ 63 ≤ n ∧ n < 2 ^ 64 then some (.shadd k (BitVec.ofInt 64 n)) else none)) ∧
  (∀ n : Int, assembleArgs (.op .ldu64) [.imm n] = (if 0 ≤ n ∧ n < 2 ^ 64 then some (.ldu64 (BitVec.ofInt 64 n)) else none)) ∧
  (∀ n : Int, assembleArgs (.op .ldi64) [.imm n] =
    (if -2 ^ 63 ≤ n ∧ n < 2 ^ 64 then some (.ldi64 (BitVec.ofInt 64 n)) else none)) ∧
  (∀ n : Int, assembleArgs (.op .add) [.imm n] =
    (if -2 ^ 63 ≤ n ∧ n < 2 ^ 64 then some (.add (BitVec.ofInt 64 n)) else none)) ∧
  (∀ hi lo : Int, assembleArgs (.op .ld128) [.imm hi, .imm lo] =
    (if (-2 ^ 63 ≤ hi ∧ hi < 2 ^ 64) ∧ (-2 ^ 63 ≤ lo ∧ lo < 2 ^ 64) then
      some (.ld128 (BitVec.ofInt 64 hi) (BitVec.ofInt 64 lo)) else none)) ∧
  (∀ hi lo : Int, assembleArgs (.op .mul) [.imm hi, .imm lo] =
    (if (-2 ^ 63 ≤ hi ∧ hi < 2 ^ 64) ∧ (-2 ^ 63 ≤ lo ∧ lo < 2 ^ 64) then
      some (.mul (BitVec.ofInt 64 hi) (BitVec.ofInt 64 lo)) else none)) ∧
  assembleArgs (.op .nop) [] = some .nop ∧ assembleArgs (.op .neg) [] = some .neg

/-- R69: the pseudo-commands' expansions and what they do: CLR clears ACC, LDMIN loads -2^127, MUL10 multiplies by 10, and `LD128 #v` and
`MUL #v` take `trunc_128(v)` for -2^127 ≤ v < 2^128 and no other `v`. -/
def Obligations.PseudoCommands : Prop :=
  assembleArgs .clr [] = assembleArgs (.op .ldu64) [.imm 0] ∧
  assembleArgs .ldmin [] = assembleArgs (.op .ld128) [.imm 0x8000000000000000, .imm 0] ∧
  assembleArgs .mul10 [] = assembleArgs (.op .mulp10) [.index 1] ∧
  (∀ v : Int, assembleArgs (.op .ld128) [.imm v] = (if -2 ^ 127 ≤ v ∧ v < 2 ^ 128 then
      some (.ld128 ((BitVec.ofInt 128 v).extractLsb' 64 64) ((BitVec.ofInt 128 v).extractLsb' 0 64)) else none)) ∧
  (∀ v : Int, assembleArgs (.op .mul) [.imm v] = (if -2 ^ 127 ≤ v ∧ v < 2 ^ 128 then
      some (.mul ((BitVec.ofInt 128 v).extractLsb' 64 64) ((BitVec.ofInt 128 v).extractLsb' 0 64)) else none)) ∧
  ∀ (v : Int) (s : State), -2 ^ 127 ≤ v → v < 2 ^ 128 →
    (∃ i, assembleArgs .clr [] = some i ∧ exec i s = .next { s with acc := 0 }) ∧
    (∃ i, assembleArgs .ldmin [] = some i ∧ exec i s = .next { s with acc := BitVec.ofInt 128 (-2 ^ 127) }) ∧
    (∃ i, assembleArgs .mul10 [] = some i ∧ exec i s = .next { s with acc := s.acc * 10 }) ∧
    (∃ i, assembleArgs (.op .ld128) [.imm v] = some i ∧ exec i s = .next { s with acc := BitVec.ofInt 128 v }) ∧
    (∃ i, assembleArgs (.op .mul) [.imm v] = some i ∧ exec i s = .next { s with acc := s.acc * BitVec.ofInt 128 v })

/-! ### The arbiter's other half -/

/-- R51: "Any order is admitted": a turn given to a host that presents an event yields that event, and every interleaving of initial parts of
the hosts' streams is what the block sees for some order of serving. With ArbiterKeepsEachHostsOrder: those interleavings and no other.
The order is an argument (DESIGN CHOICE, log 16). -/
def Obligations.ArbiterAdmitsEveryInterleaving : Prop :=
  (∀ (order : List Nat) (hosts : List (List PortEvent)) (n : Nat) (e : PortEvent) (rest : List PortEvent),
    hosts[n]? = some (e :: rest) → arbitrate (n :: order) hosts = (n, e) :: arbitrate order (hosts.set n rest)) ∧
  (∀ (seen : List (Nat × PortEvent)) (hosts : List (List PortEvent)),
    (∀ n, (seen.filter fun e => e.1 == n).map Prod.snd <+: (hosts[n]?).getD []) → ∃ order, arbitrate order hosts = seen)
end

