-- ==== Sys2Proof/Laws/Bits.lean ====
section
/-! SUPPORT. Taking a joined bit vector apart again, at every width. -/

namespace Sys2Proof.Laws

theorem extract_append_high {a b : Nat} (x : BitVec a) (y : BitVec b) : (x ++ y).extractLsb' b a = x := by
  ext i hi
  simp [BitVec.getLsbD_append, BitVec.getLsbD_eq_getElem, hi]

theorem extract_append_low {a b : Nat} (x : BitVec a) (y : BitVec b) : (x ++ y).extractLsb' 0 b = y := by
  ext i hi
  simp [BitVec.getLsbD_append, BitVec.getLsbD_eq_getElem, hi]

theorem append_extracts {a b : Nat} (x : BitVec (a + b)) : x.extractLsb' b a ++ x.extractLsb' 0 b = x := by
  ext i hi
  simp only [BitVec.getElem_append, BitVec.getElem_extractLsb']
  split
  · simp [BitVec.getLsbD_eq_getElem, hi]
  · rw [show b + (i - b) = i by omega, BitVec.getLsbD_eq_getElem hi]

end Sys2Proof.Laws
end

