-- ==== Sys2Proof/Laws/State.lean ====
section
/-! SUPPORT. One lemma per field per update of State, the fields of a packed STATUS, and the words of a joined Num. -/

namespace Sys2Proof.Machine

@[simp] theorem State.writeAcc_acc (s : State) (n : Num128) : (s.writeAcc n).acc = n := rfl
@[simp] theorem State.writeAcc_status (s : State) (n : Num128) : (s.writeAcc n).status = s.status := rfl
@[simp] theorem State.writeAcc_stream (s : State) (n : Num128) : (s.writeAcc n).stream = s.stream := rfl

@[simp] theorem State.applyReset_acc (s : State) : s.applyReset.acc = 0 := rfl
@[simp] theorem State.applyReset_status (s : State) : s.applyReset.status = 0 := rfl
@[simp] theorem State.applyReset_stream (s : State) : s.applyReset.stream = s.stream := rfl

@[simp] theorem State.reset_acc : State.reset.acc = 0 := rfl
@[simp] theorem State.reset_status : State.reset.status = 0 := rfl
@[simp] theorem State.reset_stream : State.reset.stream = [] := rfl

@[simp] theorem State.withFetchWord_acc (s : State) (nbits w : Nat) : (s.withFetchWord nbits w).acc = s.acc := rfl
@[simp] theorem State.withFetchWord_status (s : State) (nbits w : Nat) :
    (s.withFetchWord nbits w).status = s.status := rfl
@[simp] theorem State.withFetchWord_stream (s : State) (nbits w : Nat) :
    (s.withFetchWord nbits w).stream = .command (commandOfTableWord nbits w) :: s.stream := rfl

@[simp] theorem statusErr_statusWord (e : Bool) (c : BitVec 2) : statusErr (statusWord e c) = e := by
  revert e c; decide

@[simp] theorem statusCause_statusWord (e : Bool) (c : BitVec 2) : statusCause (statusWord e c) = c := by
  revert e c; decide

@[simp] theorem statusRead_statusWord (e : Bool) (c : BitVec 2) :
    statusRead (statusWord e c) = statusWord e c := by
  revert e c; decide

@[simp] theorem hiWord_ofWords (hi lo : Lane) : hiWord (ofWords hi lo) = hi :=
  Laws.extract_append_high hi lo

@[simp] theorem loWord_ofWords (hi lo : Lane) : loWord (ofWords hi lo) = lo :=
  Laws.extract_append_low hi lo

@[simp] theorem ofWords_words (n : Num128) : ofWords (hiWord n) (loWord n) = n :=
  Laws.append_extracts (a := 64) (b := 64) n

end Sys2Proof.Machine
end

