-- ==== Sys2Proof/Laws/Arith.lean ====
section
/-! SUPPORT. What each arithmetic unit and each operand view computes, said once on numbers. -/

namespace Sys2Proof.Machine

/-- A joined Num as a number. -/
theorem toNat_ofWords (hi lo : Lane) : (ofWords hi lo).toNat = hi.toNat * 2 ^ 64 + lo.toNat := by
  show (hi ++ lo : BitVec (64 + 64)).toNat = _
  rw [BitVec.toNat_append, ← Nat.shiftLeft_add_eq_or_of_lt lo.isLt, Nat.shiftLeft_eq]

/-- A Num as its two words. -/
theorem toNat_words (n : Num128) : n.toNat = (hiWord n).toNat * 2 ^ 64 + (loWord n).toNat := by
  rw [← toNat_ofWords, ofWords_words]

/-- The multiplier is multiplication of 128-bit vectors (R100). -/
theorem mulNum_eq_mul (a b : Num128) : mulNum a b = a * b := BitVec.eq_of_toNat_eq rfl

/-- The adder's mechanism adds the zero-extended increment (R94). -/
theorem addNum_eq_add (n : Num128) (delta : Lane) : addNum n delta = n + delta.setWidth 128 := by
  apply BitVec.eq_of_toNat_eq
  have hd := delta.isLt
  have hh := (hiWord n).isLt
  have hl := (loWord n).isLt
  rw [addNum, toNat_ofWords, BitVec.toNat_add n (delta.setWidth 128), toNat_words n, BitVec.toNat_setWidth,
    Nat.mod_eq_of_lt (a := delta.toNat) (by omega)]
  have hs : (loWord n + delta).toNat = ((loWord n).toNat + delta.toNat) % 2 ^ 64 := BitVec.toNat_add ..
  by_cases hc : loWord n + delta < loWord n
  · have hc' := BitVec.lt_def.mp hc
    simp only [addCarry, hc, if_true, BitVec.toNat_add]
    rw [show (1 : Lane).toNat = 1 from rfl]
    omega
  · have hc' : ¬ (loWord n + delta).toNat < (loWord n).toNat := fun h => hc (BitVec.lt_def.mpr h)
    simp only [addCarry, hc, if_false, BitVec.toNat_add]
    rw [show (0 : Lane).toNat = 0 from rfl]
    omega

/-- The negator's mechanism is 128-bit two's-complement negation (R92). -/
theorem negNum_eq_neg (n : Num128) : negNum n = -n := by
  apply BitVec.eq_of_toNat_eq
  have hh := (hiWord n).isLt
  have hl := (loWord n).isLt
  rw [negNum, toNat_ofWords, BitVec.toNat_neg, toNat_words n]
  by_cases h0 : loWord n = 0
  · have hl0 : (loWord n).toNat = 0 := by rw [h0]; rfl
    simp only [negCarry, h0, if_true, BitVec.toNat_add, BitVec.toNat_not]
    rw [show (1 : Lane).toNat = 1 from rfl, show (0 : Lane).toNat = 0 from rfl]
    omega
  · have hl0 : (loWord n).toNat ≠ 0 := fun h => h0 (BitVec.eq_of_toNat_eq h)
    simp only [negCarry, h0, if_false, BitVec.toNat_add, BitVec.toNat_not]
    rw [show (1 : Lane).toNat = 1 from rfl, show (0 : Lane).toNat = 0 from rfl]
    omega

/-- The top bit of HI is the sign bit of the value (R22, R27). -/
theorem msb_hiWord (n : Num128) : (hiWord n).msb = n.msb := by
  rw [BitVec.msb_eq_decide, BitVec.msb_eq_decide]
  have hl := (loWord n).isLt
  have := toNat_words n
  rw [decide_eq_decide]
  omega

/-- The sign test of R27 is the sign of the value. -/
theorem sign_eq_sign (n : Num128) : sign n = n.toInt.sign := by
  unfold sign
  have hn := toNat_words n
  have hl := (loWord n).isLt
  rw [msb_hiWord, BitVec.msb_eq_decide]
  have hz : (hiWord n = 0 ∧ loWord n = 0) ↔ n.toNat = 0 := by
    rw [← BitVec.toNat_inj, ← BitVec.toNat_inj, show (0 : Lane).toNat = 0 from rfl]
    omega
  rw [BitVec.toInt_eq_toNat_cond]
  have hlt := n.isLt
  by_cases h : n.toNat = 0
  · simp [hz.mpr h, h]
  · rw [if_neg (fun c => h (hz.mp c))]
    by_cases h2 : 2 * n.toNat < 2 ^ 128
    · rw [if_pos h2, if_neg (by simp; omega), Int.sign_eq_one_of_pos (by omega)]
    · rw [if_neg h2, if_pos (by simp; omega), Int.sign_eq_neg_one_of_neg (by omega)]

end Sys2Proof.Machine
end

