-- ==== Sys2Proof/Laws/PerInstr.lean ====
section
/-! SUPPORT. Where an instruction's fields stand in its command word, one lemma per constructor. -/

namespace Sys2Proof.Laws.EncodeLayout

/-- The encoder puts the opcode in bits 15:8, a scale index that fits in bits 7:0, and the operands on their lanes
(R62, R63). -/
def Statement (i : Instr) : Prop :=
  i.wellFormed = true →
    opField (encode i).hdr = i.op.code ∧ (kField (encode i).hdr).toNat = i.kValue ∧
    operandsOf i.op i.kValue (encode i).oph (encode i).opl = i

theorem opField_headerOf (op k : Byte) : opField (headerOf op k) = op := Laws.extract_append_high op k

theorem kField_headerOf (op k : Byte) : kField (headerOf op k) = k := Laws.extract_append_low op k

theorem of_fields (i : Instr) (hk : i.kValue < 256)
    (ho : operandsOf i.op i.kValue i.ophValue i.oplValue = i) : Statement i := fun _ =>
  ⟨opField_headerOf _ _, by
    rw [encode, kField_headerOf, BitVec.toNat_ofNat]; exact Nat.mod_eq_of_lt hk, ho⟩

theorem of_scale (i : Instr) (hw : i.wellFormed = true → i.kValue < 256)
    (ho : operandsOf i.op i.kValue i.ophValue i.oplValue = i) : Statement i := fun h =>
  of_fields i (hw h) ho h

theorem nop : Statement .nop := of_fields _ (by decide) rfl
theorem ldu64 (v : Lane) : Statement (.ldu64 v) := of_fields _ (by simp [Instr.kValue]) rfl
theorem ldi64 (v : Lane) : Statement (.ldi64 v) := of_fields _ (by simp [Instr.kValue]) rfl
theorem ld128 (hi lo : Lane) : Statement (.ld128 hi lo) := of_fields _ (by simp [Instr.kValue]) rfl
theorem ldp10 (k : Nat) : Statement (.ldp10 k) := of_scale _ of_decide_eq_true rfl
theorem neg : Statement .neg := of_fields _ (by decide) rfl
theorem add (delta : Lane) : Statement (.add delta) := of_fields _ (by simp [Instr.kValue]) rfl
theorem mul (hi lo : Lane) : Statement (.mul hi lo) := of_fields _ (by simp [Instr.kValue]) rfl
theorem mulp10 (k : Nat) : Statement (.mulp10 k) := of_scale _ of_decide_eq_true rfl
theorem shadd (k : Nat) (chunk : Lane) : Statement (.shadd k chunk) := of_scale _ of_decide_eq_true rfl

end Sys2Proof.Laws.EncodeLayout
end

