-- ==== Sys2Proof/Laws/Decode.lean ====
section
/-! SUPPORT. The opcode map read both ways, and decoding in terms of a header's two fields. -/

namespace Sys2Proof.Laws

/-- The opcode map gives every opcode back from its code (R64). -/
theorem ofCode_code (o : Op) : Op.ofCode o.code = some o := by cases o <;> decide

/-- The opcode map gives an opcode only for its own code (R64). -/
theorem code_of_ofCode {b : Byte} {o : Op} (h : Op.ofCode b = some o) : o.code = b := by
  simpa using List.find?_some h

/-- A header is its two fields (R62). -/
theorem headerOf_fields (h : Header) : headerOf (opField h) (kField h) = h :=
  append_extracts (a := 8) (b := 8) h

/-- Decoding by OP and K (R65). -/
theorem decode_headerOf (op k : Byte) (oph opl : Lane) : decode ⟨headerOf op k, oph, opl⟩ =
    match Op.ofCode op with
    | none => .error (.undefinedOp op)
    | some o =>
      if o.usesK = false ∧ k ≠ 0 then .error (.nonzeroK o k) else .ok (operandsOf o k.toNat oph opl) := by
  cases h : Op.ofCode op <;>
    simp only [decode, EncodeLayout.opField_headerOf, EncodeLayout.kField_headerOf, h]

/-- Decoding a defined opcode (R65). -/
theorem decode_code (o : Op) (k : Byte) (oph opl : Lane) : decode ⟨headerOf o.code k, oph, opl⟩ =
    if o.usesK = false ∧ k ≠ 0 then .error (.nonzeroK o k) else .ok (operandsOf o k.toNat oph opl) := by
  rw [decode_headerOf, ofCode_code]

end Sys2Proof.Laws
end

