-- ==== Sys2Proof/Laws/Limbs.lean ====
section
/-! SUPPORT. The loops of the limb method written out once, for any term. -/

namespace Sys2Proof.Machine

/-- The ten pairs of R104 in loop order. -/
theorem limbPairs_eq : limbPairs =
    [(0, 0), (0, 1), (0, 2), (0, 3), (1, 0), (1, 1), (1, 2), (2, 0), (2, 1), (3, 0)] := by decide

/-- Summing any term over the pairs. -/
theorem foldl_limbPairs (f : Nat × Nat → Nat) : limbPairs.foldl (fun r p => r + f p) 0 =
    f (0, 0) + f (0, 1) + f (0, 2) + f (0, 3) + f (1, 0) + f (1, 1) + f (1, 2) + f (2, 0) + f (2, 1) + f (3, 0) := by
  rw [limbPairs_eq]
  simp only [List.foldl_cons, List.foldl_nil, zero_add]

end Sys2Proof.Machine
end

