-- ==== Sys2Proof/Laws/Ops.lean ====
section
/-! SUPPORT. What each shared operation can do, said once: raising a fault, a ROM read, the scale-index form, a step. -/

namespace Sys2Proof.Machine

/-- Raising a fault with ERR = 0 records it. -/
theorem State.raise_of_clear {s : State} (c : Cause) (h : statusErr s.status = false) :
    s.raise c = { s with status := statusWord true c.code } := by
  simp [State.raise, h]

/-- Raising a fault with ERR = 1 changes nothing. -/
theorem State.raise_of_set {s : State} (c : Cause) (h : statusErr s.status = true) : s.raise c = s := by
  simp [State.raise, h]

@[simp] theorem State.raise_acc (s : State) (c : Cause) : (s.raise c).acc = s.acc := by
  unfold State.raise; split <;> rfl

@[simp] theorem State.raise_stream (s : State) (c : Cause) : (s.raise c).stream = s.stream := by
  unfold State.raise; split <;> rfl

/-- Raising a fault as one update of STATUS. -/
theorem State.raise_eq (s : State) (c : Cause) :
    s.raise c = { s with status := if statusErr s.status = false then statusWord true c.code else s.status } := by
  unfold State.raise; split <;> rfl

/-- STATUS after a fault. -/
theorem State.raise_status (s : State) (c : Cause) :
    (s.raise c).status = if statusErr s.status = false then statusWord true c.code else s.status := by
  rw [State.raise_eq]

/-- A read inside the ROM, entry by entry. -/
theorem romRead_of_le {k : Nat} (h : k ≤ Config.kMax) : romRead k = some (BitVec.ofNat 128 (10 ^ k)) := by
  have all : ∀ j : Fin 39, romRead j.val = some (BitVec.ofNat 128 (10 ^ j.val)) := by decide
  exact all ⟨k, Nat.lt_succ_of_le h⟩

/-- The ROM has `NSCALE` entries (R6). -/
theorem scaleTable_length : scaleTable.length = Config.nScale := by decide

/-- A read outside the ROM. -/
theorem romRead_of_gt {k : Nat} (h : Config.kMax < k) : romRead k = none :=
  List.getElem?_eq_none (by rw [scaleTable_length]; exact h)

/-- The scale-index form with an index inside the ROM. -/
theorem State.withScale_of_le (s : State) {k : Nat} (f : Num128 → Num128) (h : k ≤ Config.kMax) :
    s.withScale k f = .next (s.writeAcc (f (BitVec.ofNat 128 (10 ^ k)))) := by
  simp [State.withScale, romRead_of_le h]

/-- The scale-index form with an index outside the ROM. -/
theorem State.withScale_of_gt (s : State) {k : Nat} (f : Num128 → Num128) (h : Config.kMax < k) :
    s.withScale k f = .next (s.raise .scaleOutOfRange) := by
  simp [State.withScale, romRead_of_gt h]

/-- Everything a decoded command can do: write ACC, or raise ScaleOutOfRange. -/
theorem exec_cases (i : Instr) (s : State) :
    (∃ n, exec i s = .next (s.writeAcc n)) ∨ exec i s = .next (s.raise .scaleOutOfRange) := by
  have scale (k : Nat) (f : Num128 → Num128) :
      (∃ n, s.withScale k f = .next (s.writeAcc n)) ∨ s.withScale k f = .next (s.raise .scaleOutOfRange) := by
    rcases Nat.lt_or_ge Config.kMax k with h | h
    · exact .inr (s.withScale_of_gt f h)
    · exact .inl ⟨_, s.withScale_of_le f h⟩
  cases i with
  | nop => exact .inl ⟨s.acc, rfl⟩
  | ldu64 v => exact .inl ⟨_, rfl⟩
  | ldi64 v => exact .inl ⟨_, rfl⟩
  | ld128 hi lo => exact .inl ⟨_, rfl⟩
  | ldp10 k => exact scale k _
  | neg => exact .inl ⟨_, rfl⟩
  | add delta => exact .inl ⟨_, rfl⟩
  | mul hi lo => exact .inl ⟨_, rfl⟩
  | mulp10 k => exact scale k _
  | shadd k chunk => exact scale k _

/-- Everything an accepted command can do: write ACC, or raise one fault. -/
theorem runCommand_cases (c : Command) (s : State) :
    (∃ n, runCommand c s = .next (s.writeAcc n)) ∨ (∃ f, runCommand c s = .next (s.raise f)) := by
  unfold runCommand
  split
  · rcases exec_cases _ s with ⟨n, h⟩ | h
    · exact .inl ⟨n, h⟩
    · exact .inr ⟨_, h⟩
  · exact .inr ⟨_, rfl⟩

end Sys2Proof.Machine
end

