-- ==== Sys2Proof/Laws/Port.lean ====
section
/-! SUPPORT. The clocked port edge by edge. -/

namespace Sys2Proof.Machine

/-- `complete` is the next state that the command's rule answers. -/
theorem runCommand_eq_complete (c : Command) (s : State) : runCommand c s = .next (complete c s) := by
  rcases runCommand_cases c s with ⟨n, h⟩ | ⟨f, h⟩ <;> simp [complete, h]

theorem Port.run_cons (T : Config.Timing) (p : Port) (x : Pins) (xs : List Pins) :
    p.run T (x :: xs) = (p.edge T x).run T xs := rfl

theorem Port.run_append (T : Config.Timing) (p : Port) (xs ys : List Pins) :
    p.run T (xs ++ ys) = (p.run T xs).run T ys := by
  simp [Port.run]

theorem Port.accepted_cons (T : Config.Timing) (p : Port) (x : Pins) (xs : List Pins) :
    p.accepted T (x :: xs) = (if p.accepts x then [x.cmd] else []) ++ (p.edge T x).accepted T xs := by
  rw [Port.accepted]
  split <;> rfl

/-- An edge with RST = 1. -/
theorem Port.edge_of_reset (T : Config.Timing) (p : Port) {x : Pins} (h : x.rst = true) : p.edge T x = p.resetEdge := by
  simp [Port.edge, h]

/-- An edge with a command in flight. -/
theorem Port.edge_of_inFlight (T : Config.Timing) {p : Port} {x : Pins} {c : Command} {n : Nat} (h : x.rst = false)
    (hf : p.inFlight = some (c, n)) : p.edge T x = p.advance c n := by
  simp [Port.edge, h, hf]

/-- An edge that accepts. -/
theorem Port.edge_of_accepts (T : Config.Timing) {p : Port} {x : Pins} (h : x.rst = false) (hf : p.inFlight = none)
    (ha : p.accepts x = true) : p.edge T x = p.advance x.cmd (T.lat (opField x.cmd.hdr)) := by
  simp [Port.edge, h, hf, ha]

/-- An edge with nothing in flight that accepts nothing. -/
theorem Port.edge_of_quiet (T : Config.Timing) {p : Port} {x : Pins} (h : x.rst = false) (hf : p.inFlight = none)
    (ha : p.accepts x = false) : p.edge T x = p.quietEdge T := by
  simp [Port.edge, h, hf, ha]

end Sys2Proof.Machine
end

