-- ==== Sys2Proof/Laws/Step.lean ====
section
/-! SUPPORT. Everything one step can do, said once. -/

namespace Sys2Proof.Machine

/-- A step idles, takes a reset, or runs the oldest command, which writes ACC or raises one fault. -/
theorem step_cases (s : State) :
    (s.stream = [] ∧ step s = .next s) ∨
    (∃ rest, s.stream = .reset :: rest ∧ step s = .next { acc := 0, status := 0, stream := rest }) ∨
    (∃ c rest, s.stream = .command c :: rest ∧
      ((∃ n, step s = .next { s with acc := n, stream := rest }) ∨
        ∃ f, step s = .next ({ s with stream := rest }.raise f))) := by
  unfold step
  split
  · exact .inl ⟨‹_›, rfl⟩
  · exact .inr (.inl ⟨_, ‹_›, rfl⟩)
  · rename_i c rest h
    refine .inr (.inr ⟨c, rest, h, ?_⟩)
    rcases runCommand_cases c { s with stream := rest } with ⟨n, h⟩ | ⟨f, h⟩
    · exact .inl ⟨n, h⟩
    · exact .inr ⟨f, h⟩

end Sys2Proof.Machine
end

