-- ==== Sys2Proof/Tests/Slice0.lean ====
section
/-! SUPPORT. The model's own tests. Expected values are those of spec/95_test_vectors.md (row numbers in the names' comments) or are
written out from the rules; none is the model's own answer. The last part gives, for each statement with hypotheses, a state and
operands that meet all of them. -/

namespace Sys2Proof.Tests
open Sys2Proof.Machine

/-! ### WellFormed: an ill-formed term for each check (R62: K is 8 bits wide) -/

theorem test_ldp10_index_too_wide : (Instr.ldp10 256).wellFormed = false := by decide
theorem test_mulp10_index_too_wide : (Instr.mulp10 256).wellFormed = false := by decide
theorem test_shadd_index_too_wide : (Instr.shadd 256 0).wellFormed = false := by decide
theorem test_shadd_widest_index : (Instr.shadd 255 0).wellFormed = true := by decide

/-! ### Decoding: headers written out bit by bit from the table of R64, every constructor -/

theorem test_decode_nop : decode ⟨0b0000000000000000, 1, 2⟩ = .ok .nop := by decide
theorem test_decode_ldu64 : decode ⟨0b0000000100000000, 1, 2⟩ = .ok (.ldu64 2) := by decide
theorem test_decode_ldi64 : decode ⟨0b0000001000000000, 1, 2⟩ = .ok (.ldi64 2) := by decide
theorem test_decode_ld128 : decode ⟨0b0000001100000000, 1, 2⟩ = .ok (.ld128 1 2) := by decide
theorem test_decode_ldp10 : decode ⟨0b0000010000010011, 1, 2⟩ = .ok (.ldp10 19) := by decide
theorem test_decode_neg : decode ⟨0b0000100000000000, 1, 2⟩ = .ok .neg := by decide
theorem test_decode_add : decode ⟨0b0000100100000000, 1, 2⟩ = .ok (.add 2) := by decide
theorem test_decode_mul : decode ⟨0b0000101000000000, 1, 2⟩ = .ok (.mul 1 2) := by decide
theorem test_decode_mulp10 : decode ⟨0b0000101111001000, 1, 2⟩ = .ok (.mulp10 200) := by decide
theorem test_decode_shadd : decode ⟨0b0000110000010010, 1, 2⟩ = .ok (.shadd 18 2) := by decide
theorem test_decode_op05 : decode ⟨0x0500, 0, 0⟩ = .error (.undefinedOp 5) := by decide
theorem test_decode_mul_with_k : decode ⟨0x0A27, 0, 0⟩ = .error (.nonzeroK .mul 0x27) := by decide
theorem test_table_word_shadd : decodeTableWord 16 0x0C26 = some (.shadd 38 0) := by decide
theorem test_table_word_ignores_high_bits : decodeTableWord 16 0x70800 = some .neg := by decide

/-! ### One command, from the word to the output ports -/

/-- The output ports after one step of the block on one command. -/
def portAfter (acc : Num128) (status : Byte) (c : Command) : Option Outputs :=
  match step { acc := acc, status := status, stream := [.command c] } with
  | .next t => some t.outputs
  | .fault _ => none
  | .refused _ => none

/-- A value used by the vectors of 95_test_vectors.md. -/
def sample : Num128 := ofWords 0x0123456789ABCDEF 0xFEDCBA9876543210

/-- Loads 1. -/
theorem test_nop : portAfter sample 0 ⟨0x0000, 0, 0⟩ = some ⟨0x0123456789ABCDEF, 0xFEDCBA9876543210, 0b01, 0⟩ := by decide
/-- Loads 3. -/
theorem test_ldu64_all_ones : portAfter sample 0 ⟨0x0100, 0, 0xFFFFFFFFFFFFFFFF⟩ = some ⟨0, 0xFFFFFFFFFFFFFFFF, 0b01, 0⟩ := by decide
/-- Loads 4. -/
theorem test_ldu64_ignores_oph : portAfter 0 0 ⟨0x0100, 0xDEADBEEF, 0x8000000000000000⟩ = some ⟨0, 0x8000000000000000, 0b01, 0⟩ := by decide
/-- Loads 7. -/
theorem test_ldi64_minus_two : portAfter 0 0 ⟨0x0200, 0, 0xFFFFFFFFFFFFFFFE⟩ = some ⟨0xFFFFFFFFFFFFFFFF, 0xFFFFFFFFFFFFFFFE, 0b11, 0⟩ := by decide
/-- Loads 9. -/
theorem test_ldi64_largest : portAfter 0 0 ⟨0x0200, 0, 0x7FFFFFFFFFFFFFFF⟩ = some ⟨0, 0x7FFFFFFFFFFFFFFF, 0b01, 0⟩ := by decide
/-- Loads 10. -/
theorem test_ld128_min : portAfter 0 0 ⟨0x0300, 0x8000000000000000, 0⟩ = some ⟨0x8000000000000000, 0, 0b11, 0⟩ := by decide
/-- Loads 13. -/
theorem test_ldp10_19 : portAfter sample 0 ⟨0x0413, 0, 0⟩ = some ⟨0, 0x8AC7230489E80000, 0b01, 0⟩ := by decide
/-- Loads 15. -/
theorem test_ldp10_39_faults : portAfter sample 0 ⟨0x0427, 0, 0⟩ = some ⟨0x0123456789ABCDEF, 0xFEDCBA9876543210, 0b01, 0x03⟩ := by decide
/-- NEG 4. -/
theorem test_neg_min : portAfter minNum 0 ⟨0x0800, 0, 0⟩ = some ⟨0x8000000000000000, 0, 0b11, 0⟩ := by decide
/-- NEG 8. -/
theorem test_neg_carry : portAfter (ofWords 1 0) 0 ⟨0x0800, 0, 0⟩ = some ⟨0xFFFFFFFFFFFFFFFF, 0, 0b11, 0⟩ := by decide
/-- ADD 4. -/
theorem test_add_signed_wrap : portAfter (ofWords 0x7FFFFFFFFFFFFFFF 0xFFFFFFFFFFFFFFFF) 0 ⟨0x0900, 0, 1⟩ =
    some ⟨0x8000000000000000, 0, 0b11, 0⟩ := by decide
/-- ADD 8. -/
theorem test_add_top_bit_set : portAfter 5 0 ⟨0x0900, 0, 0xFFFFFFFFFFFFFFFD⟩ = some ⟨1, 2, 0b01, 0⟩ := by decide
/-- MUL 17. -/
theorem test_mul_mixed : portAfter sample 0 ⟨0x0A00, 0x0F0F0F0F0F0F0F0F, 0x1111111111111111⟩ =
    some ⟨0x8973D5AEFFC807BE, 0xEF0259F5D5FA6310, 0b11, 0⟩ := by decide
/-- MUL 2. -/
theorem test_mul_positive_negative : portAfter 3 0 ⟨0x0A00, 0xFFFFFFFFFFFFFFFF, 0xFFFFFFFFFFFFFFFB⟩ =
    some ⟨0xFFFFFFFFFFFFFFFF, 0xFFFFFFFFFFFFFFF1, 0b11, 0⟩ := by decide
/-- MULP10 8. -/
theorem test_mulp10_wrap : portAfter (ofWords 0x4B3B4CA85A86C47A 0x098A224000000000) 0 ⟨0x0B01, 0, 0⟩ =
    some ⟨0xF050FE938943ACC4, 0x5F65568000000000, 0b11, 0⟩ := by decide
/-- MULP10 11. -/
theorem test_mulp10_200_faults : portAfter sample 0 ⟨0x0BC8, 0, 0⟩ = some ⟨0x0123456789ABCDEF, 0xFEDCBA9876543210, 0b01, 0x03⟩ := by decide
/-- SHADD 9. -/
theorem test_shadd_wrap : portAfter (ofWords 0x0785EE10D5DA46D9 0x00F436A000000000) 0 ⟨0x0C12, 0, 0x0DE0B6B3A763FFFF⟩ =
    some ⟨0xB2FFFA5A71FBA0E7, 0xC460B6B3A763FFFF, 0b11, 0⟩ := by decide
/-- SHADD 8. -/
theorem test_shadd_top_bit_set : portAfter 5 0 ⟨0x0C01, 0, 0xFFFFFFFFFFFFFFFF⟩ = some ⟨1, 0x31, 0b01, 0⟩ := by decide
/-- Decode 6: IllegalCommand, not ScaleOutOfRange. -/
theorem test_mul_with_k_faults : portAfter sample 0 ⟨0x0A27, 0, 0⟩ = some ⟨0x0123456789ABCDEF, 0xFEDCBA9876543210, 0b01, 0x05⟩ := by decide
/-- Program P6, step 5: a second fault keeps the first cause. -/
theorem test_second_fault_keeps_cause : portAfter 1 0x03 ⟨0xFF00, 0, 0⟩ = some ⟨0, 1, 0b01, 0x03⟩ := by decide

/-! ### The assembler: lines of R68 and R69 -/

theorem test_asm_shadd : assembleLine "  SHADD 2, #12 ; chunk".toList = .command (.shadd 2 12) := by decide
theorem test_asm_signed : assembleLine "ADD #-3".toList = .command (.add 0xFFFFFFFFFFFFFFFD) := by decide
theorem test_asm_hex_pair : assembleLine "LD128 #0x8000000000000000, #0".toList = .command (.ld128 0x8000000000000000 0) := by decide
theorem test_asm_pseudo : assembleLine "MUL10".toList = .command (.mulp10 1) := by decide
theorem test_asm_wide_index_refused : assembleLine "LDP10 256".toList = .refused := by decide
theorem test_asm_comment_is_blank : assembleLine " ; nothing".toList = .blank := by decide

/-! ### Witnesses: concrete values that meet a statement's hypotheses -/

/-- A state with one event waiting. -/
def waiting (e : PortEvent) : State := { acc := 5, status := 0, stream := [e] }

/-- Latency 3 for every opcode, and a reset of 2 edges. -/
def timing3 : Config.Timing := ⟨fun _ => 3, 2, by decide, by decide⟩

/-- Latency 1 for every opcode. -/
def timing1 : Config.Timing := ⟨fun _ => 1, 1, by decide, by decide⟩

/-- An edge with RST = 1, an edge that presents ADD #1, and an edge that presents nothing. -/
def rstEdge : Pins := ⟨true, false, ⟨0, 0, 0⟩⟩
def addEdge : Pins := ⟨false, true, ⟨0x0900, 0, 1⟩⟩
def noEdge : Pins := ⟨false, false, ⟨0, 0, 0⟩⟩

theorem witness_StepRunsDecodedCommand :
    (waiting (.command ⟨0x0900, 0, 1⟩)).stream = .command ⟨0x0900, 0, 1⟩ :: [] ∧ decode ⟨0x0900, 0, 1⟩ = .ok (.add 1) := by decide
theorem witness_StepRunsPlacedWord : decodeTableWord 16 0x0900 = some (.add 0) := by decide
theorem witness_StepRaisesIllegalCommand :
    (waiting (.command ⟨0x0801, 0, 0⟩)).stream = .command ⟨0x0801, 0, 0⟩ :: [] ∧ ∀ i, decode ⟨0x0801, 0, 0⟩ ≠ .ok i := by
  refine ⟨rfl, fun i h => ?_⟩
  rw [show decode ⟨0x0801, 0, 0⟩ = .error (.nonzeroK .neg 1) by decide] at h
  cases h
theorem witness_StepTakesReset : (waiting .reset).stream = .reset :: [] := by decide
theorem witness_StepIdles : State.reset.stream = [] := by decide
theorem witness_SequentialComposition : (waiting .reset).stream = [PortEvent.reset] ++ [] := by decide
theorem witness_DecodeOfEncode : (Instr.shadd 255 7).wellFormed = true := by decide
theorem witness_EncodeOfDecode : decode ⟨0x0C27, 9, 8⟩ = .ok (.shadd 39 8) := by decide
theorem witness_UnusedLanesIgnored :
    ((0x0900 : BitVec 16) ∈ ([0x0300, 0x0A00] : List (BitVec 16)) → (1 : BitVec 64) = 2) ∧
    ((0x0900 : BitVec 16) ∈ ([0x0100, 0x0200, 0x0300, 0x0900, 0x0A00] : List (BitVec 16)) ∨
      (0x0900 : BitVec 16).extractLsb' 8 8 = 0x0C → (3 : BitVec 64) = 3) := by decide
theorem witness_NopChangesNothing : (0xFF : BitVec 8) ≠ 0 := by decide
/-- The K clause of LoadUnsigned, LoadSigned, LoadWords, NegMechanism, AddMechanism and MulTruncates. -/
theorem witness_nonzero_k : (1 : BitVec 8) ≠ 0 := by decide
/-- The clause `k ≤ 38` of LoadPowerOfTen, RomReadBounds, ArithmeticWraps, MultiplyByPowerOfTen, ShiftAndAdd, LoadsDoNotReadAcc and
ResetValues, at both ends. -/
theorem witness_scale_in_range : (0 : Nat) ≤ 38 ∧ (38 : Nat) ≤ 38 := by decide
/-- The clause `38 < k` of LoadPowerOfTen, RomReadBounds, MultiplyByPowerOfTen and ShiftAndAdd, at the boundary. -/
theorem witness_scale_out_of_range : (38 : Nat) < 39 ∧ (38 : Nat) < 255 := by decide
theorem witness_RomProperties : (1 : Nat) ≤ 38 ∧ romRead 37 = some (ofWords 0x0785EE10D5DA46D9 0x00F436A000000000) ∧
    romRead 38 = some (ofWords 0x4B3B4CA85A86C47A 0x098A224000000000) := by decide
theorem witness_NegMechanism : (0 : Int) < (1 : BitVec 128).toInt ∧ (-1 : BitVec 128).toInt < 0 ∧
    (-1 : BitVec 128) ≠ 0x80000000000000000000000000000000 := by decide
theorem witness_NegIsTwosComplement : (0x80000000000000000000000000000001 : BitVec 128) ≠ 0x80000000000000000000000000000000 ∧
    minNum = 0x80000000000000000000000000000000 := by decide
theorem witness_AddIsZeroExtendedSum : (0x7FFFFFFFFFFFFFFF : BitVec 64).getLsbD 63 = false ∧
    (0x8000000000000000 : BitVec 64).getLsbD 63 = true := by decide
theorem witness_MulTruncates : (1 : BitVec 64) ++ (0 : BitVec 64) = (0x10000000000000000 : BitVec 128) := by decide
theorem witness_MulSignedAndUnsignedAgree :
    fits128 ((3 : BitVec 128).toInt * (0xFFFFFFFFFFFFFFFF#64 ++ 0xFFFFFFFFFFFFFFFB#64 : BitVec 128).toInt) := by decide
theorem witness_ChunkStepsConcatenate : chunkContract 18 999999999999999999 ∧ chunkContract 1 9 ∧
    fits128 ((0 : BitVec 128).toInt * 10 ^ 18 + (999999999999999999 : BitVec 64).toNat) ∧
    fits128 ((0 : BitVec 128).toInt * 10 ^ (18 + 1) + (999999999999999999 : BitVec 64).toNat * 10 ^ 1 + (9 : BitVec 64).toNat) := by decide
theorem witness_FaultEffect : (0x00 : BitVec 8).getLsbD 0 = false ∧ (0x03 : BitVec 8).getLsbD 0 = true := by decide
theorem witness_FaultIsSticky : statusErr 0x03 = true ∧ ∃ t, step { acc := 5, status := 0x03, stream := [.command ⟨0, 0, 0⟩] } = .next t :=
  ⟨by decide, _, rfl⟩
theorem witness_StepKeepsStatusLegal : (waiting (.command ⟨0x0427, 0, 0⟩)).legal ∧ ∃ t, step (waiting (.command ⟨0x0427, 0, 0⟩)) = .next t :=
  ⟨by decide, _, rfl⟩
theorem witness_LittleEndianBytes : (leBytes (ofWords 0x0123456789ABCDEF 0xFEDCBA9876543210))[0]? = some 0x10 := by decide
/-- Two states with one ACC and different STATUS: SignOutput and CommandWritesOneRegister. -/
theorem witness_SignOutput : ({ acc := 5, status := 3, stream := [] } : State).acc = (waiting .reset).acc := by decide
theorem witness_PortReset : (∀ y ∈ [rstEdge, rstEdge], y.rst = true) ∧ timing3.resetCycles ≤ [rstEdge, rstEdge].length ∧ noEdge.rst = false := by
  decide
theorem witness_PortCompletion : Port.afterReset.inFlight = none ∧ Port.afterReset.accepts addEdge = true ∧
    (∀ y ∈ [noEdge, addEdge], y.rst = false) ∧ [noEdge].length + 1 < timing3.lat (opField addEdge.cmd.hdr) ∧
    [noEdge, addEdge].length + 1 = timing3.lat (opField addEdge.cmd.hdr) := by decide
theorem witness_PortIgnoresUnacceptedInputs : noEdge.rst = false ∧ Port.afterReset.accepts noEdge = false ∧
    Port.afterReset.accepts ⟨false, false, ⟨0x0900, 7, 7⟩⟩ = false ∧ Port.afterReset.inFlight = none ∧ Port.afterReset.ready = true := by decide
theorem witness_PortInvariant : (Port.mk State.reset false (some (⟨0x0900, 0, 1⟩, 2)) 0).wf = true := by decide
theorem witness_ClockedPortRefinesStep : Port.afterReset.inFlight = none ∧ (∀ y ∈ [addEdge, noEdge, noEdge], y.rst = false) ∧
    Port.afterReset.accepted timing3 [addEdge, noEdge, noEdge] = [⟨0x0900, 0, 1⟩] := by decide
theorem witness_OutputsDoNotDependOnLatency :
    Port.afterReset.accepted timing3 [addEdge, noEdge, noEdge] = Port.afterReset.accepted timing1 [addEdge] ∧
    (Port.afterReset.run timing3 [addEdge, noEdge, noEdge]).inFlight = none ∧
    (Port.afterReset.run timing1 [addEdge]).inFlight = none := by decide
/-- Two hosts, and the interleaving that begins with the second. -/
theorem witness_ArbiterAdmitsEveryInterleaving :
    ([[.reset], [.command ⟨0x0900, 0, 1⟩]] : List (List PortEvent))[1]? = some (.command ⟨0x0900, 0, 1⟩ :: []) ∧
    arbitrate [1, 0] [[.reset], [.command ⟨0x0900, 0, 1⟩]] = [(1, .command ⟨0x0900, 0, 1⟩), (0, .reset)] ∧
    ∀ n, (([(1, .command ⟨0x0900, 0, 1⟩), (0, .reset)] : List (Nat × PortEvent)).filter fun e => e.1 == n).map Prod.snd <+:
      ([[.reset], [.command ⟨0x0900, 0, 1⟩]] : List (List PortEvent))[n]?.getD [] := by
  refine ⟨rfl, by decide, fun n => ?_⟩
  rcases n with _ | _ | n
  · exact List.prefix_refl _
  · exact List.prefix_refl _
  · exact List.nil_prefix
theorem witness_BlocksAreIndependent : (0 : Nat) ≠ 1 ∧ (0 : Nat) < (System.mk [waiting .reset, State.reset]).blocks.length ∧
    ((System.mk [waiting .reset, State.reset]).stepBlock 0).isSome = true := by decide
theorem witness_AssembledCommandsFit : assembleArgs (.op .shadd) [.index 255, .imm 7] = some (.shadd 255 7) := by decide
/-- The ends of the ranges of R68: SHADD and LDU64 at them and just outside. -/
theorem test_asm_ranges :
    assembleArgs (.op .shadd) [.index 255, .imm (-2 ^ 63)] = some (.shadd 255 0x8000000000000000) ∧
    assembleArgs (.op .shadd) [.index 256, .imm 0] = none ∧ assembleArgs (.op .shadd) [.index 0, .imm (2 ^ 64)] = none ∧
    assembleArgs (.op .ldu64) [.imm (-1)] = none ∧ assembleArgs (.op .ldi64) [.imm (-2 ^ 63 - 1)] = none := by decide
theorem witness_PseudoCommands : (-2 : Int) ^ 127 ≤ -2 ^ 127 ∧ (2 : Int) ^ 128 - 1 < 2 ^ 128 := by decide

end Sys2Proof.Tests
end

section
/-! SUPPORT for the scope statements (00_scope.md): a Num's value, the arithmetic units on values, and one rule each for
`runCommand` and `step`. -/

namespace Sys2Proof.Machine

/-! ### A Num and its value (R9, R13) -/

/-- The word formula of R9 is the two's-complement reading: HI alone decides the sign. -/
theorem numValue_eq_toInt (n : Num128) : numValue n = n.toInt := by
  have hn := toNat_words n
  have hlo := (loWord n).isLt
  rw [numValue, BitVec.toInt_eq_toNat_cond, BitVec.toInt_eq_toNat_cond, hn]
  split <;> split <;> omega

/-- A Num's value is in range (R9, R22). -/
theorem fits128_toInt (n : Num128) : fits128 n.toInt :=
  ⟨BitVec.le_toInt n, BitVec.toInt_lt⟩

/-- A Num is determined by its two words (R9). -/
theorem eq_iff_words_eq (a b : Num128) : a = b ↔ hiWord a = hiWord b ∧ loWord a = loWord b := by
  refine ⟨fun h => h ▸ ⟨rfl, rfl⟩, fun ⟨hhi, hlo⟩ => ?_⟩
  rw [← ofWords_words a, ← ofWords_words b, hhi, hlo]

/-! ### The arithmetic units reduce the exact integer result modulo 2^128 (R14, R95) -/

/-- The negator on values. -/
theorem negNum_eq_ofInt (n : Num128) : negNum n = BitVec.ofInt 128 (-n.toInt) := by
  rw [negNum_eq_neg, BitVec.ofInt_neg, BitVec.ofInt_toInt]

/-- The multiplier on values read as signed. -/
theorem mulNum_eq_ofInt (a b : Num128) : mulNum a b = BitVec.ofInt 128 (a.toInt * b.toInt) := by
  rw [mulNum_eq_mul, BitVec.ofInt_mul, BitVec.ofInt_toInt, BitVec.ofInt_toInt]

/-- The multiplier with a ROM entry, whose value is `10^k`. -/
theorem mulNum_pow_ten (a : Num128) (k : Nat) :
    mulNum a (BitVec.ofNat 128 (10 ^ k)) = BitVec.ofInt 128 (a.toInt * 10 ^ k) := by
  have hpow : (10 : Int) ^ k = ((10 ^ k : Nat) : Int) := by push_cast; rfl
  rw [mulNum_eq_mul, BitVec.ofInt_mul, BitVec.ofInt_toInt, hpow, BitVec.ofInt_natCast]

/-- The adder after a reduction: the integer `v` may be out of range, so this composes with a product (SHADD, R102). -/
theorem addNum_ofInt (v : Int) (delta : Lane) :
    addNum (BitVec.ofInt 128 v) delta = BitVec.ofInt 128 (v + delta.toNat) := by
  rw [addNum_eq_add, BitVec.ofInt_add, BitVec.ofInt_natCast, BitVec.ofNat_toNat]

/-- The adder on values. -/
theorem addNum_eq_ofInt (n : Num128) (delta : Lane) :
    addNum n delta = BitVec.ofInt 128 (n.toInt + delta.toNat) := by
  rw [← addNum_ofInt, BitVec.ofInt_toInt]

/-! ### What one command writes (R12) -/

/-- The scale-index form with one `f` on two states of one ACC leaves one ACC, whether the index is in the ROM or not. `f` and `f'` are two
terms because MULP10 and SHADD compute `f` from ACC. -/
theorem State.withScale_acc_congr {s s' : State} (k : Nat) {f f' : Num128 → Num128}
    (hacc : s'.acc = s.acc) (hf : f' = f) :
    ∃ t t', s.withScale k f = .next t ∧ s'.withScale k f' = .next t' ∧ t'.acc = t.acc := by
  rcases Nat.lt_or_ge Config.kMax k with hk | hk
  · exact ⟨_, _, s.withScale_of_gt f hk, s'.withScale_of_gt f' hk, by simp [hacc]⟩
  · exact ⟨_, _, s.withScale_of_le f hk, s'.withScale_of_le f' hk, by simp [hf]⟩

/-- The ACC a decoded command leaves depends on the state through ACC only. -/
theorem exec_acc_congr (i : Instr) {s s' : State} (hacc : s'.acc = s.acc) :
    ∃ t t', exec i s = .next t ∧ exec i s' = .next t' ∧ t'.acc = t.acc := by
  cases i with
  | nop => exact ⟨_, _, rfl, rfl, hacc⟩
  | ldu64 v => exact ⟨_, _, rfl, rfl, rfl⟩
  | ldi64 v => exact ⟨_, _, rfl, rfl, rfl⟩
  | ld128 hi lo => exact ⟨_, _, rfl, rfl, rfl⟩
  | ldp10 k => exact State.withScale_acc_congr k hacc rfl
  | neg => exact ⟨_, _, rfl, rfl, congrArg negNum hacc⟩
  | add delta => exact ⟨_, _, rfl, rfl, congrArg (addNum · delta) hacc⟩
  | mul hi lo => exact ⟨_, _, rfl, rfl, congrArg (mulNum · (ofWords hi lo)) hacc⟩
  | mulp10 k => exact State.withScale_acc_congr k hacc (by rw [hacc])
  | shadd k chunk => exact State.withScale_acc_congr k hacc (by rw [hacc])

/-- An accepted command whose header decodes runs by its rule (R65). -/
theorem runCommand_of_decode {c : Command} {i : Instr} (hc : decode c = .ok i) (s : State) :
    runCommand c s = exec i s := by
  simp only [runCommand, hc]

/-- An accepted command whose header does not decode raises IllegalCommand (R65, R121). -/
theorem runCommand_of_illegal {c : Command} {e : Illegal} (hc : decode c = .error e) (s : State) :
    runCommand c s = .next (s.raise .illegalCommand) := by
  simp only [runCommand, hc]

/-- The ACC an accepted command leaves depends on the state through ACC only (R12). -/
theorem runCommand_acc_congr {c : Command} {s s' t : State} (hacc : s'.acc = s.acc) (h : runCommand c s = .next t) :
    ∃ t', runCommand c s' = .next t' ∧ t'.acc = t.acc := by
  cases hc : decode c with
  | ok i =>
    rw [runCommand_of_decode hc] at h ⊢
    obtain ⟨u, t', hu, ht', heq⟩ := exec_acc_congr i hacc
    cases hu.symm.trans h
    exact ⟨t', ht', heq⟩
  | error e =>
    cases (runCommand_of_illegal hc s).symm.trans h
    exact ⟨_, runCommand_of_illegal hc s', by simp [hacc]⟩

/-! ### The step (R12, R50) -/

/-- A step with a command as the oldest event takes it from the stream and runs it (R50). -/
theorem step_of_command {s : State} {c : Command} {rest : List PortEvent} (hs : s.stream = .command c :: rest) :
    step s = runCommand c { s with stream := rest } := by
  simp only [step, hs]

end Sys2Proof.Machine
end

section
/-! The scope statements (00_scope.md), settled. -/

namespace Sys2Proof.Proofs

open Sys2Proof.Machine

/-- Settles O44: the value from the two words, its range, and equality word by word. -/
theorem numValue : Obligations.NumValue :=
  ⟨fun n => ⟨numValue_eq_toInt n, fits128_toInt n, numValue_eq_toInt n⟩, eq_iff_words_eq⟩

/-- Settles O27: each arithmetic command writes ACC with its unit's result, which is the exact one reduced. -/
theorem arithmeticWraps : Obligations.ArithmeticWraps := by
  intro s delta hi lo k hk
  refine ⟨?neg, ?add, ?mul, ?mulp10, ?shadd⟩
  case neg => rw [← negNum_eq_ofInt]; rfl
  case add => rw [← addNum_eq_ofInt]; rfl
  case mul => rw [← mulNum_eq_ofInt]; rfl
  case mulp10 => rw [← mulNum_pow_ten]; exact s.withScale_of_le _ hk
  case shadd => rw [← addNum_ofInt, ← mulNum_pow_ten]; exact s.withScale_of_le _ hk

/-- Settles O42: `runCommand_cases` gives the one register written, `runCommand_acc_congr` what ACC depends on. -/
theorem commandWritesOneRegister : Obligations.CommandWritesOneRegister := by
  intro c s
  rcases runCommand_cases c s with ⟨n, h⟩ | ⟨f, h⟩
  · exact ⟨_, h, .inl ⟨n, rfl⟩, fun _ hacc => runCommand_acc_congr hacc h⟩
  · exact ⟨_, h, .inr ⟨f, rfl⟩, fun _ hacc => runCommand_acc_congr hacc h⟩

/-- Settles O8: the step runs the command, and the command runs by what it decodes to. -/
theorem stepRunsDecodedCommand : Obligations.StepRunsDecodedCommand := by
  intro s c rest i hs hc
  rw [step_of_command hs, runCommand_of_decode hc]

end Sys2Proof.Proofs
end

section
/-! SUPPORT for the state statements (10_state.md): the legality of STATUS under each write, what STATUS_OUT shows, what a load writes,
and the values of SIGN. -/

namespace Sys2Proof.Machine

/-! ### STATUS (R29, R122) -/

/-- The STATUS that reset writes is legal (R32). -/
theorem statusLegal_zero : statusLegal 0 := by decide

/-- Each cause has a code that R29 allows beside ERR = 1: neither 0b00 nor 0b11. -/
theorem statusLegal_recorded (f : Cause) : statusLegal (statusWord true f.code) := by
  cases f <;> decide

/-- Raising a fault keeps STATUS legal: it records one cause, or it writes nothing. -/
theorem State.legal_raise {s : State} (f : Cause) (h : s.legal) : (s.raise f).legal := by
  cases he : statusErr s.status with
  | false => rw [State.raise_of_clear f he]; exact statusLegal_recorded f
  | true => rw [State.raise_of_set f he]; exact h

@[simp] theorem statusErr_statusRead (st : Byte) : statusErr (statusRead st) = statusErr st := by
  simp [statusErr, statusRead]

@[simp] theorem statusCause_statusRead (st : Byte) : statusCause (statusRead st) = statusCause st := by
  rw [statusCause, statusRead, BitVec.extractLsb'_and]
  exact BitVec.and_allOnes

/-- The hardwired bits of STATUS_OUT (R29). -/
@[simp] theorem statusRead_reserved (st : Byte) : (statusRead st).extractLsb' 3 5 = 0 := by
  rw [statusRead, BitVec.extractLsb'_and]
  exact BitVec.and_zero

/-! ### The loads (R24) -/

/-- A load writes one Num to ACC, the same from every state; LDP10 takes it from the ROM. -/
theorem exec_load {v hi lo : Lane} {k : Nat} (hk : k ≤ Config.kMax) {i : Instr}
    (hmem : i ∈ [Instr.ldu64 v, .ldi64 v, .ld128 hi lo, .ldp10 k]) :
    ∃ n, ∀ s, exec i s = .next (s.writeAcc n) := by
  simp only [List.mem_cons, List.not_mem_nil, or_false] at hmem
  rcases hmem with rfl | rfl | rfl | rfl
  · exact ⟨ofWords 0 v, fun _ => rfl⟩
  · exact ⟨ofWords (signWord v) v, fun _ => rfl⟩
  · exact ⟨ofWords hi lo, fun _ => rfl⟩
  · exact ⟨_, fun s => s.withScale_of_le _ hk⟩

/-! ### SIGN (R27, R28) -/

/-- The sign bit that R27 tests is bit 127 of ACC. -/
theorem msb_hiWord_eq_getLsbD (n : Num128) : (hiWord n).msb = n.getLsbD 127 := by
  rw [msb_hiWord, BitVec.msb_eq_getLsbD_last]

/-- The encoding of SIGN (R28). -/
theorem signPort_eq (n : Num128) :
    signPort n = if n.toInt = 0 then 0b00 else if n.toInt < 0 then 0b11 else 0b01 := by
  rw [signPort, sign_eq_sign]
  rcases lt_trichotomy n.toInt 0 with h | h | h
  · rw [if_neg h.ne, if_pos h, Int.sign_eq_neg_one_of_neg h]; rfl
  · rw [if_pos h, h]; rfl
  · rw [if_neg h.ne', if_neg h.not_gt, Int.sign_eq_one_of_pos h]; rfl

/-- The pattern that no sign encodes (R28). -/
theorem signPort_ne_two (n : Num128) : signPort n ≠ 0b10 := by
  rw [signPort_eq]
  split_ifs <;> decide

end Sys2Proof.Machine
end

section
/-! The state statements (10_state.md), settled. -/

namespace Sys2Proof.Proofs

open Sys2Proof.Machine

/-- Settles O39: of what a step can do, only a reset and a raised fault write STATUS. -/
theorem stepKeepsStatusLegal : Obligations.StepKeepsStatusLegal := by
  intro s t hs ht
  rcases step_cases s with ⟨-, h⟩ | ⟨rest, -, h⟩ | ⟨c, rest, -, ⟨n, h⟩ | ⟨f, h⟩⟩ <;> cases h.symm.trans ht
  case inl => exact hs
  case inr.inl => exact statusLegal_zero
  case inr.inr.inl => exact hs
  case inr.inr.inr => exact State.legal_raise (s := { s with stream := rest }) f hs

/-- Settles O43: the Num that a load writes is chosen before the state. -/
theorem loadsDoNotReadAcc : Obligations.LoadsDoNotReadAcc := by
  intro v hi lo k s s' hk i hmem
  obtain ⟨n, hn⟩ := exec_load hk hmem
  exact ⟨_, _, hn s, hn s', rfl⟩

/-- Settles O45: SIGN is computed from ACC alone, so states of one ACC show one SIGN. -/
theorem signOutput : Obligations.SignOutput := by
  intro s
  refine ⟨?test, sign_eq_sign s.acc, signPort_eq s.acc, signPort_ne_two s.acc, fun t h => congrArg signPort h⟩
  case test => rw [← msb_hiWord_eq_getLsbD]; rfl

/-- Settles O40: reset writes 0x00. -/
theorem resetStatusIsLegal : Obligations.ResetStatusIsLegal := statusLegal_zero

/-- Settles O41: STATUS_OUT is STATUS with its reserved bits masked. -/
theorem statusOutFields : Obligations.StatusOutFields := fun s =>
  ⟨statusErr_statusRead s.status, statusCause_statusRead s.status, statusRead_reserved s.status⟩

/-- Settles O46: the two ports are the two words of ACC. -/
theorem outputsShowAcc : Obligations.OutputsShowAcc := fun s => ⟨rfl, rfl, ofWords_words s.acc⟩

/-- Settles O47: the registers by evaluation at reset, a reset edge from any port state, and the ROM entry by entry. -/
theorem resetValues : Obligations.ResetValues :=
  ⟨by decide, fun _ => rfl, fun _ => ⟨rfl, rfl, rfl⟩, fun _ hk => romRead_of_le hk⟩

end Sys2Proof.Proofs
end

section
/-! SUPPORT for the memory statements (20_memory.md): the values in the ROM, the bytes of a Num, the frame of the host's stream, and the
arbiter turn by turn. -/

namespace Sys2Proof.Machine

/-! ### The ROM (R41, R42, R43) -/

/-- No power of ten that the ROM holds reaches the sign bit of a Num (R43). -/
theorem pow_ten_lt {k : Nat} (hk : k ≤ Config.kMax) : 10 ^ k < 2 ^ 127 :=
  calc 10 ^ k ≤ 10 ^ Config.kMax := Nat.pow_le_pow_right (by decide) hk
    _ < 2 ^ 127 := by decide

/-- A read takes place exactly when the index is in the ROM (R42). -/
theorem romRead_isSome_iff (k : Nat) : (romRead k).isSome = true ↔ k ≤ Config.kMax := by
  rcases Nat.lt_or_ge Config.kMax k with hk | hk
  · simp [romRead_of_gt hk, hk]
  · simp [romRead_of_le hk, hk]

/-- The number that a read returns: `10^k`, with nothing lost in the 128 bits of the entry. -/
theorem toNat_of_romRead {k : Nat} {p : Num128} (h : romRead k = some p) : p.toNat = 10 ^ k := by
  have hk : k ≤ Config.kMax := (romRead_isSome_iff k).mp (by simp [h])
  cases (romRead_of_le hk).symm.trans h
  exact Nat.mod_eq_of_lt ((pow_ten_lt hk).trans (by decide))

/-- The three commands that read the ROM (R42). -/
theorem exec_of_scale_gt {k : Nat} {chunk : Lane} (s : State) (hk : Config.kMax < k) {i : Instr}
    (hmem : i ∈ [Instr.ldp10 k, .mulp10 k, .shadd k chunk]) : exec i s = .next (s.raise .scaleOutOfRange) := by
  simp only [List.mem_cons, List.not_mem_nil, or_false] at hmem
  rcases hmem with rfl | rfl | rfl <;> exact s.withScale_of_gt _ hk

/-! ### The bytes of a Num (R45) -/

theorem toNat_leByte_zero (n : Num128) : (leByte n 0).toNat = n.toNat % 256 := by
  simp [leByte]

/-- The byte after byte `i` is byte `i` of the Num shifted down by one byte. -/
theorem leByte_succ (n : Num128) (i : Nat) : leByte n (i + 1) = leByte (n >>> 8) i := by
  ext j hj
  simp [leByte, show 8 * (i + 1) + j = 8 + (8 * i + j) by omega]

/-- The number that the lowest `m` bytes of a Num spell, the first one least significant. -/
theorem foldr_leByte (m : Nat) (n : Num128) :
    ((List.range m).map (leByte n)).foldr (fun b acc => b.toNat + 256 * acc) 0 = n.toNat % 256 ^ m := by
  induction m generalizing n with
  | zero => simp [Nat.mod_one]
  | succ m ih =>
    have tail : ((List.range m).map Nat.succ).map (leByte n) = (List.range m).map (leByte (n >>> 8)) := by
      rw [List.map_map]
      exact List.map_congr_left fun i _ => leByte_succ n i
    have shifted : (n >>> 8).toNat = n.toNat / 256 := by
      rw [BitVec.toNat_ushiftRight, Nat.shiftRight_eq_div_pow]
    rw [List.range_succ_eq_map, List.map_cons, List.foldr_cons, tail, ih, toNat_leByte_zero, shifted, Nat.pow_succ',
      Nat.mod_mul]

theorem getElem?_leBytes (n : Num128) {i : Nat} (hi : i < 16) : (leBytes n)[i]? = some (leByte n i) := by
  simp [leBytes, List.getElem?_range hi]

theorem ofLeBytes_leBytes (n : Num128) : ofLeBytes (leBytes n) = n := by
  have hlt : n.toNat < 256 ^ 16 := n.isLt
  rw [ofLeBytes, leBytes, foldr_leByte, Nat.mod_eq_of_lt hlt, BitVec.ofNat_toNat, BitVec.setWidth_eq]

/-! ### What waits in the host's stream is neither read nor changed by a command (R50) -/

theorem State.withScale_stream {s t : State} {k : Nat} {f : Num128 → Num128} (h : s.withScale k f = .next t)
    (fs : List PortEvent) : { s with stream := fs }.withScale k f = .next { t with stream := fs } := by
  rcases Nat.lt_or_ge Config.kMax k with hk | hk
  · cases (s.withScale_of_gt f hk).symm.trans h
    rw [State.withScale_of_gt _ f hk, State.raise_eq, State.raise_eq]
  · cases (s.withScale_of_le f hk).symm.trans h
    exact State.withScale_of_le _ f hk

theorem exec_stream {i : Instr} {s t : State} (h : exec i s = .next t) (fs : List PortEvent) :
    exec i { s with stream := fs } = .next { t with stream := fs } := by
  cases i with
  | nop => cases h; rfl
  | ldu64 v => cases h; rfl
  | ldi64 v => cases h; rfl
  | ld128 hi lo => cases h; rfl
  | ldp10 k => exact State.withScale_stream h fs
  | neg => cases h; rfl
  | add delta => cases h; rfl
  | mul hi lo => cases h; rfl
  | mulp10 k => exact State.withScale_stream h fs
  | shadd k chunk => exact State.withScale_stream h fs

theorem runCommand_stream {c : Command} {s t : State} (h : runCommand c s = .next t) (fs : List PortEvent) :
    runCommand c { s with stream := fs } = .next { t with stream := fs } := by
  cases hc : decode c with
  | ok i =>
    rw [runCommand_of_decode hc] at h ⊢
    exact exec_stream h fs
  | error e =>
    cases (runCommand_of_illegal hc s).symm.trans h
    rw [runCommand_of_illegal hc, State.raise_eq, State.raise_eq]

/-- A step takes the oldest event, and the registers it leaves are the same whatever waits behind that event. -/
theorem step_event (e : PortEvent) (s : State) :
    ∃ t : State, ∀ fs, step { s with stream := e :: fs } = .next { t with stream := fs } := by
  cases e with
  | command c =>
    refine ⟨complete c s, fun fs => ?_⟩
    rw [step_of_command rfl]
    exact runCommand_stream (runCommand_eq_complete c s) fs
  | reset => exact ⟨s.applyReset, fun _ => rfl⟩

/-! ### Runs -/

/-- No step stops the block (R122, R133). -/
theorem step_completes (s : State) : ∃ t, step s = .next t := by
  rcases step_cases s with ⟨-, h⟩ | ⟨rest, -, h⟩ | ⟨c, rest, -, ⟨n, h⟩ | ⟨f, h⟩⟩ <;> exact ⟨_, h⟩

/-- A run begins with one step. -/
theorem run_succ_of_step {s t : State} (h : step s = .next t) (k : Nat) :
    Host.Core.run Sys2Proof.core (k + 1) s = Host.Core.run Sys2Proof.core k t := by
  have hcore : Sys2Proof.core.step s = .next t := h
  simp only [Host.Core.run, hcore]

/-- A longer run goes on from where its first part ends. -/
theorem run_add_of_run {m : Nat} {s t : State} (h : Host.Core.run Sys2Proof.core m s = .next t) (k : Nat) :
    Host.Core.run Sys2Proof.core (m + k) s = Host.Core.run Sys2Proof.core k t := by
  induction m generalizing s with
  | zero => cases h; rw [Nat.zero_add]
  | succ m ih =>
    obtain ⟨u, hu⟩ := step_completes s
    rw [run_succ_of_step hu] at h
    rw [Nat.add_right_comm, run_succ_of_step hu, ih h]

/-- Running the first events of the stream leaves the same registers whatever waits behind them. -/
theorem run_events (es : List PortEvent) (s : State) :
    ∃ t : State, ∀ fs, Host.Core.run Sys2Proof.core es.length ({ s with stream := es ++ fs } : State) =
      .next ({ t with stream := fs } : State) := by
  induction es generalizing s with
  | nil => exact ⟨s, fun _ => rfl⟩
  | cons e es ih =>
    obtain ⟨u, hu⟩ := step_event e s
    obtain ⟨t, ht⟩ := ih u
    exact ⟨t, fun fs => (run_succ_of_step (hu (es ++ fs)) es.length).trans (ht fs)⟩

/-! ### The arbiter (R51) -/

/-- A host that presents an event is granted it. -/
theorem grant_of_cons {n : Nat} {hosts : List (List PortEvent)} {e : PortEvent} {rest : List PortEvent}
    (h : hosts[n]? = some (e :: rest)) : grant n hosts = some (e, hosts.set n rest) := by
  simp only [grant, h]

/-- Everything a turn can do: take the oldest event of its host, or nothing. -/
theorem grant_cases (n : Nat) (hosts : List (List PortEvent)) :
    (∃ e rest, hosts[n]? = some (e :: rest)) ∨ grant n hosts = none := by
  unfold grant
  split
  · exact .inl ⟨_, _, ‹_›⟩
  · exact .inr rfl
  · exact .inr rfl

theorem arbitrate_cons_of_cons {n : Nat} {hosts : List (List PortEvent)} {e : PortEvent} {rest : List PortEvent}
    (h : hosts[n]? = some (e :: rest)) (order : List Nat) :
    arbitrate (n :: order) hosts = (n, e) :: arbitrate order (hosts.set n rest) := by
  simp only [arbitrate, grant_of_cons h]

theorem arbitrate_cons_of_grant_none {n : Nat} {hosts : List (List PortEvent)} (h : grant n hosts = none) (order : List Nat) :
    arbitrate (n :: order) hosts = arbitrate order hosts := by
  simp only [arbitrate, h]

/-- The events of one host among those the block sees, as ArbiterKeepsEachHostsOrder and ArbiterAdmitsEveryInterleaving select them. -/
def eventsFrom (n : Nat) (seen : List (Nat × PortEvent)) : List PortEvent :=
  (seen.filter fun e => e.1 == n).map Prod.snd

@[simp] theorem eventsFrom_cons_same (n : Nat) (e : PortEvent) (seen : List (Nat × PortEvent)) :
    eventsFrom n ((n, e) :: seen) = e :: eventsFrom n seen := by
  simp [eventsFrom]

theorem eventsFrom_cons_other {m n : Nat} (h : n ≠ m) (e : PortEvent) (seen : List (Nat × PortEvent)) :
    eventsFrom m ((n, e) :: seen) = eventsFrom m seen := by
  simp [eventsFrom, h]

/-- A turn takes the same event off what the block sees and off its host's stream, so it keeps, both ways, that the events of host `m`
are an initial part of its stream. -/
theorem eventsFrom_cons_prefix_iff {n : Nat} {hosts : List (List PortEvent)} {e : PortEvent} {rest : List PortEvent}
    (h : hosts[n]? = some (e :: rest)) (seen : List (Nat × PortEvent)) (m : Nat) :
    eventsFrom m ((n, e) :: seen) <+: (hosts[m]?).getD [] ↔ eventsFrom m seen <+: ((hosts.set n rest)[m]?).getD [] := by
  by_cases hm : n = m
  · subst hm
    have hlt : n < hosts.length := (List.getElem?_eq_some_iff.mp h).1
    simp [h, List.getElem?_set_self hlt]
  · rw [eventsFrom_cons_other hm, List.getElem?_set_ne hm]

/-- The host of the first event seen presents that event. -/
theorem presents_of_eventsFrom_cons_prefix {n : Nat} {hosts : List (List PortEvent)} {e : PortEvent}
    {seen : List (Nat × PortEvent)} (h : eventsFrom n ((n, e) :: seen) <+: (hosts[n]?).getD []) :
    ∃ rest, hosts[n]? = some (e :: rest) := by
  rw [eventsFrom_cons_same] at h
  obtain ⟨later, hlater⟩ := h
  cases hn : hosts[n]? with
  | none => simp [hn] at hlater
  | some events =>
    rw [hn, Option.getD_some] at hlater
    exact ⟨_, congrArg some hlater.symm⟩

end Sys2Proof.Machine
end

section
/-! The memory statements (20_memory.md), settled. -/

namespace Sys2Proof.Proofs

open Sys2Proof.Machine

/-- Settles O14: the first part's run leaves registers chosen before what follows it (`run_events`), and the whole run goes on from there. -/
theorem sequentialComposition : Obligations.SequentialComposition := by
  intro es fs s hs
  obtain ⟨t, ht⟩ := run_events es s
  have halone := ht []
  have hwhole := ht fs
  rw [List.append_nil] at halone
  rw [← hs] at hwhole
  exact ⟨t, halone, hwhole, run_add_of_run hwhole fs.length⟩

/-- Settles O20: each entry is the number `10^k`, so the three properties are facts about powers of ten. -/
theorem romProperties : Obligations.RomProperties := by
  refine ⟨romRead_of_le (Nat.zero_le _), ?next, ?last, romRead_isSome_iff⟩
  case next =>
    intro k p q h1 hk hp hq
    have hten : p.toNat * 10 = 10 ^ k := by
      rw [toNat_of_romRead hp, ← Nat.pow_succ, Nat.succ_eq_add_one, Nat.sub_add_cancel h1]
    rw [hten]
    exact ⟨Option.some.inj (hq.symm.trans (romRead_of_le hk)), pow_ten_lt hk⟩
  case last =>
    intro p hp
    have hval : p.toNat = 10 ^ 38 := toNat_of_romRead hp
    refine ⟨?_, by decide⟩
    rw [BitVec.toInt_eq_toNat_of_lt (by rw [hval]; decide), hval]
    decide

/-- Settles O21: the read by its index, and the three commands by the fault they raise. -/
theorem romReadBounds : Obligations.RomReadBounds :=
  ⟨fun _ hk => romRead_of_le hk, fun _ hk => romRead_of_gt hk, fun k chunk s hk i hmem => by
    rw [exec_of_scale_gt s hk hmem, State.raise_eq]
    rfl⟩

/-- Settles O48: the bytes spell the Num's number in base 256. -/
theorem littleEndianBytes : Obligations.LittleEndianBytes :=
  ⟨fun n _ hi => getElem?_leBytes n hi, ofLeBytes_leBytes⟩

/-- Settles O55, turn by turn: a turn either takes its host's oldest event or nothing. -/
theorem arbiterKeepsEachHostsOrder : Obligations.ArbiterKeepsEachHostsOrder := by
  intro order hosts m
  induction order generalizing hosts with
  | nil => exact List.nil_prefix
  | cons n order ih =>
    rcases grant_cases n hosts with ⟨e, rest, h⟩ | h
    · rw [arbitrate_cons_of_cons h]
      exact (eventsFrom_cons_prefix_iff h _ m).mpr (ih _)
    · rw [arbitrate_cons_of_grant_none h]
      exact ih hosts

/-- Settles O59: the order that serves the hosts of the events seen, one turn for each. -/
theorem arbiterAdmitsEveryInterleaving : Obligations.ArbiterAdmitsEveryInterleaving := by
  refine ⟨fun order hosts n e rest h => arbitrate_cons_of_cons h order, fun seen => ?_⟩
  induction seen with
  | nil => exact fun _ _ => ⟨[], rfl⟩
  | cons x seen ih =>
    intro hosts hprefix
    obtain ⟨n, e⟩ := x
    obtain ⟨rest, h⟩ := presents_of_eventsFrom_cons_prefix (hprefix n)
    obtain ⟨order, horder⟩ := ih (hosts.set n rest) fun m => (eventsFrom_cons_prefix_iff h seen m).mp (hprefix m)
    exact ⟨n :: order, by rw [arbitrate_cons_of_cons h, horder]⟩

end Sys2Proof.Proofs
end

section
/-! SUPPORT for the encoding statements (30_encoding.md): what an opcode makes of a header's fields, which headers decode, how many, and
what the assembler accepts. -/

namespace Sys2Proof.Laws

/-! ### An opcode's operands (R63, R64) -/

theorem op_operandsOf (o : Op) (k : Nat) (oph opl : Lane) : (operandsOf o k oph opl).op = o := by
  cases o <;> rfl

theorem kValue_operandsOf (o : Op) (k : Nat) (oph opl : Lane) :
    (operandsOf o k oph opl).kValue = if o.usesK then k else 0 := by
  cases o <;> rfl

theorem ophValue_operandsOf (o : Op) (k : Nat) (oph opl : Lane) :
    (operandsOf o k oph opl).ophValue = if o.usesOph then oph else 0 := by
  cases o <;> rfl

theorem oplValue_operandsOf (o : Op) (k : Nat) (oph opl : Lane) :
    (operandsOf o k oph opl).oplValue = if o.usesOpl then opl else 0 := by
  cases o <;> rfl

/-- The operands do not contain a lane that the opcode ignores (R61). -/
theorem operandsOf_congr {o : Op} {oph opl oph' opl' : Lane} (hh : o.usesOph = true → oph = oph')
    (hl : o.usesOpl = true → opl = opl') (k : Nat) : operandsOf o k oph opl = operandsOf o k oph' opl' := by
  cases o <;> simp_all [operandsOf, Op.usesOph, Op.usesOpl]

/-- An instruction is well formed exactly when what it puts in K fits 8 bits (R62). -/
theorem wellFormed_iff (i : Instr) : i.wellFormed = true ↔ i.kValue < 256 := by
  cases i with
  | ldp10 k | mulp10 k | shadd k chunk => exact decide_eq_true_iff
  | _ => exact iff_of_true rfl (Nat.zero_lt_succ 255)

/-- Only the scale-index commands put something in K (R62). -/
theorem kValue_of_not_usesK {i : Instr} (h : i.op.usesK = false) : i.kValue = 0 := by
  cases i <;> simp_all [Instr.op, Op.usesK, Instr.kValue]

/-- The layout of Laws/PerInstr.lean for every instruction (R62, R63). -/
theorem encodeLayout : ∀ i : Instr, EncodeLayout.Statement i
  | .nop => EncodeLayout.nop
  | .ldu64 v => EncodeLayout.ldu64 v
  | .ldi64 v => EncodeLayout.ldi64 v
  | .ld128 hi lo => EncodeLayout.ld128 hi lo
  | .ldp10 k => EncodeLayout.ldp10 k
  | .neg => EncodeLayout.neg
  | .add delta => EncodeLayout.add delta
  | .mul hi lo => EncodeLayout.mul hi lo
  | .mulp10 k => EncodeLayout.mulp10 k
  | .shadd k chunk => EncodeLayout.shadd k chunk

/-! ### Which headers decode (R65, R66) -/

/-- A defined opcode decodes with any K if it uses K, and with K = 0 if it does not (R65). -/
theorem decode_legal (o : Op) (k : Byte) (hk : o.usesK = false → k = 0) (oph opl : Lane) :
    decode ⟨headerOf o.code k, oph, opl⟩ = .ok (operandsOf o k.toNat oph opl) := by
  rw [decode_code, if_neg fun h => h.2 (hk h.1)]

/-- Everything decoding can answer: one error whatever the lanes hold, or the operands of one opcode whose K is legal. -/
theorem decode_cases (h : Header) :
    (∃ e, ∀ oph opl, decode ⟨h, oph, opl⟩ = .error e) ∨
    (∃ o k, h = headerOf o.code k ∧ (o.usesK = false → k = 0) ∧
      ∀ oph opl, decode ⟨h, oph, opl⟩ = .ok (operandsOf o k.toNat oph opl)) := by
  rw [← headerOf_fields h]
  generalize opField h = b, kField h = k
  cases hb : Op.ofCode b with
  | none => exact .inl ⟨_, fun oph opl => by rw [decode_headerOf, hb]⟩
  | some o =>
    rw [← code_of_ofCode hb]
    by_cases hk : o.usesK = false ∧ k ≠ 0
    · exact .inl ⟨_, fun oph opl => by rw [decode_code, if_pos hk]⟩
    · have hk' : o.usesK = false → k = 0 := fun ho => not_not.mp fun hne => hk ⟨ho, hne⟩
      exact .inr ⟨o, k, rfl, hk', decode_legal o k hk'⟩

/-- What a command decodes to, from its header's opcode and K. -/
theorem decode_eq_ok {c : Command} {i : Instr} (h : decode c = .ok i) :
    ∃ o k, c.hdr = headerOf o.code k ∧ (o.usesK = false → k = 0) ∧ i = operandsOf o k.toNat c.oph c.opl := by
  rcases decode_cases c.hdr with ⟨e, he⟩ | ⟨o, k, hc, hk, hi⟩
  · cases (he c.oph c.opl).symm.trans h
  · exact ⟨o, k, hc, hk, Except.ok.inj (h.symm.trans (hi c.oph c.opl))⟩

theorem mem_opcodeMap (o : Op) : o ∈ opcodeMap := by cases o <;> decide

/-- The codes of the opcodes that use K (R65). -/
theorem exists_usesK_code_iff (b : Byte) : (∃ o : Op, o.usesK = true ∧ o.code = b) ↔ b ∈ [0x04, 0x0B, 0x0C] := by
  rw [show [0x04, 0x0B, 0x0C] = (opcodeMap.filter fun o => o.usesK).map Op.code by decide]
  simp [mem_opcodeMap]

/-- The codes of the opcodes that do not use K (R65). -/
theorem exists_not_usesK_code_iff (b : Byte) :
    (∃ o : Op, o.usesK = false ∧ o.code = b) ↔ b ∈ [0x00, 0x01, 0x02, 0x03, 0x08, 0x09, 0x0A] := by
  rw [show [0x00, 0x01, 0x02, 0x03, 0x08, 0x09, 0x0A] = (opcodeMap.filter fun o => !o.usesK).map Op.code by decide]
  simp [mem_opcodeMap]

/-- A header decodes exactly when its OP byte is the code of an opcode that uses K, or that of another one and K is 0. -/
theorem decodes_iff (h : Header) (oph opl : Lane) :
    (∃ i, decode ⟨h, oph, opl⟩ = .ok i) ↔
      (∃ o : Op, o.usesK = true ∧ o.code = opField h) ∨
        ((∃ o : Op, o.usesK = false ∧ o.code = opField h) ∧ kField h = 0) := by
  constructor
  · rintro ⟨i, hi⟩
    obtain ⟨o, k, rfl, hk, -⟩ := decode_eq_ok hi
    rw [EncodeLayout.opField_headerOf, EncodeLayout.kField_headerOf]
    cases ho : o.usesK with
    | true => exact .inl ⟨o, ho, rfl⟩
    | false => exact .inr ⟨⟨o, ho, rfl⟩, hk ho⟩
  · intro hc
    rw [← headerOf_fields h]
    rcases hc with ⟨o, ho, hb⟩ | ⟨⟨o, ho, hb⟩, hk⟩ <;> rw [← hb]
    · exact ⟨_, decode_legal o _ (fun h => absurd (ho.symm.trans h) (by decide)) oph opl⟩
    · exact ⟨_, decode_legal o _ (fun _ => hk) oph opl⟩

/-! ### The lanes a header uses (R63) -/

theorem usesOph_iff (o : Op) : o.usesOph = true ↔ o ∈ [Op.ld128, Op.mul] := by cases o <;> decide

theorem usesOpl_iff (o : Op) : o.usesOpl = true ↔ o ∈ [Op.ldu64, Op.ldi64, Op.ld128, Op.add, Op.mul, Op.shadd] := by
  cases o <;> decide

/-- The headers that read the lane CMD_OPH. -/
theorem header_of_usesOph {o : Op} {k : Byte} (ho : o.usesOph = true) (hk : o.usesK = false → k = 0) :
    headerOf o.code k ∈ [0x0300, 0x0A00] := by
  have husesK : o.usesK = false := by revert ho; cases o <;> decide
  rw [hk husesK]
  revert ho
  cases o <;> decide

/-- The headers that read the lane CMD_OPL; SHADD is the one with a K. -/
theorem header_of_usesOpl {o : Op} {k : Byte} (ho : o.usesOpl = true) (hk : o.usesK = false → k = 0) :
    headerOf o.code k ∈ [0x0100, 0x0200, 0x0300, 0x0900, 0x0A00] ∨ opField (headerOf o.code k) = 0x0C := by
  cases husesK : o.usesK with
  | true =>
    rw [EncodeLayout.opField_headerOf]
    exact .inr (by revert ho husesK; cases o <;> decide)
  | false =>
    rw [hk husesK]
    exact .inl (by revert ho husesK; cases o <;> decide)

/-! ### How many headers decode (R65) -/

/-- The scale index with which a header of opcode `o` (none where undefined) and K = `k` decodes; none where it is illegal. -/
def scaleIndex : Option Op → Nat → Option Nat
  | none, _ => none
  | some o, k => if o.usesK then some k else if k = 0 then some 0 else none

theorem kValue_decode_headerOf (op : Byte) {k : Nat} (hk : k < 256) (oph opl : Lane) :
    (decode ⟨headerOf op (BitVec.ofNat 8 k), oph, opl⟩).toOption.map Instr.kValue = scaleIndex (Op.ofCode op) k := by
  have hval : (BitVec.ofNat 8 k).toNat = k := by rw [BitVec.toNat_ofNat]; exact Nat.mod_eq_of_lt hk
  have hzero : BitVec.ofNat 8 k = 0#8 ↔ k = 0 := by rw [← BitVec.toNat_inj, hval]; rfl
  rw [decode_headerOf]
  cases Op.ofCode op with
  | none => rfl
  | some o =>
    cases ho : o.usesK <;> by_cases h0 : k = 0 <;>
      simp [scaleIndex, Except.toOption, kValue_operandsOf, hval, hzero, ho, h0]

/-- How many of the 256 headers of one OP byte have a property of their scale index. -/
def rowCount (q : Option Nat → Bool) (o : Option Op) : Nat := (List.range 256).countP fun k => q (scaleIndex o k)

theorem rowCount_undefined (q : Option Nat → Bool) : rowCount q none = 256 * (q none).toNat := by
  cases h : q none <;> simp [rowCount, scaleIndex, h]

theorem rowCount_defined (q : Option Nat → Bool) (o : Op) : rowCount q (some o) =
    if o.usesK then (List.range 256).countP fun k => q (some k) else (q (some 0)).toNat + 255 * (q none).toNat := by
  cases ho : o.usesK with
  | true => simp [rowCount, scaleIndex, ho]
  | false =>
    rw [rowCount, List.range_succ_eq_map]
    cases h0 : q (some 0) <;> cases hn : q none <;>
      simp [scaleIndex, ho, h0, hn, List.countP_map, Function.comp_def]

/-- No opcode has a code above 0x0C (R64). -/
theorem ofCode_of_ge {b : Byte} (h : 0x0D ≤ b.toNat) : Op.ofCode b = none := by
  cases hb : Op.ofCode b with
  | none => rfl
  | some o =>
    have hlt : o.code.toNat < 0x0D := by cases o <;> decide
    rw [code_of_ofCode hb] at hlt
    exact absurd h (Nat.not_le.mpr hlt)

/-- The opcodes of the OP bytes 0x00 to 0xFF (R64). -/
theorem map_ofCode_range : (List.range 256).map (fun op => Op.ofCode (BitVec.ofNat 8 op)) =
    [some .nop, some .ldu64, some .ldi64, some .ld128, some .ldp10, none, none, none,
      some .neg, some .add, some .mul, some .mulp10, some .shadd] ++ List.replicate 243 none := by
  rw [show 256 = 13 + 243 from rfl, List.range_add, List.map_append, List.map_map]
  refine congrArg₂ _ (by decide) (List.eq_replicate_iff.mpr ⟨by simp, fun o ho => ?_⟩)
  obtain ⟨j, hj, rfl⟩ := List.mem_map.mp ho
  have hlt : 13 + j < 2 ^ 8 := Nat.add_lt_add_left (List.mem_range.mp hj) 13
  refine ofCode_of_ge ?_
  rw [BitVec.toNat_ofNat, Nat.mod_eq_of_lt hlt]
  exact Nat.le_add_right 13 j

theorem headerCount_eq_sum_rowCount (q : Option Nat → Bool) :
    headerCount (fun d => q (d.toOption.map Instr.kValue)) =
      (((List.range 256).map fun op => Op.ofCode (BitVec.ofNat 8 op)).map (rowCount q)).sum := by
  rw [headerCount, List.map_map]
  refine congrArg List.sum (List.map_congr_left fun op _ => ?_)
  rw [← List.countP_eq_length_filter, Function.comp_apply, rowCount]
  refine List.countP_congr fun k hk => ?_
  rw [kValue_decode_headerOf _ (List.mem_range.mp hk)]

/-- The count of R65: three OP bytes with 256 values of K, seven with K = 0 only, and 246 undefined ones. -/
theorem headerCount_eq (q : Option Nat → Bool) :
    headerCount (fun d => q (d.toOption.map Instr.kValue)) =
      3 * (List.range 256).countP (fun k => q (some k)) + 7 * (q (some 0)).toNat +
        (7 * 255 + 246 * 256) * (q none).toNat := by
  rw [headerCount_eq_sum_rowCount, map_ofCode_range]
  simp only [List.map_append, List.map_replicate, List.map_cons, List.map_nil, List.sum_append, List.sum_cons, List.sum_nil,
    List.sum_replicate, rowCount_undefined, rowCount_defined, Op.usesK, if_true, Bool.false_eq_true, if_false, smul_eq_mul]
  omega

theorem countP_range_ge (a b : Nat) : (List.range (a + b)).countP (fun k => decide (a ≤ k)) = b := by
  have hlow : (List.range a).countP (fun k => decide (a ≤ k)) = 0 := by simp [List.countP_eq_zero]
  rw [List.range_add, List.countP_append, hlow, List.countP_map]
  simp [Function.comp_def]

end Sys2Proof.Laws

namespace Sys2Proof.Machine

/-! ### The assembler (R68, R69) -/

theorem guarded_decide (p : Prop) [Decidable p] (i : Instr) : guarded (decide p) i = if p then some i else none := by
  simp [guarded]

theorem guarded_decide_and (p q : Prop) [Decidable p] [Decidable q] (i : Instr) :
    guarded (decide p && decide q) i = if p ∧ q then some i else none := by
  rw [← Bool.decide_and, guarded_decide]

theorem wellFormed_of_guarded {ok : Bool} {i j : Instr} (h : guarded ok i = some j)
    (hi : ok = true → i.wellFormed = true) : j.wellFormed = true := by
  cases ok with
  | true => cases h; exact hi rfl
  | false => cases h

/-- The assembler's check on an index is that of a well-formed instruction (R62, R68). -/
theorem fitsK_eq (k : Nat) : fitsK k = decide (k < Config.kValues) := decide_eq_decide.mpr Nat.lt_succ_iff.symm

/-- What assembles fits its command word, form by form in the order of `assembleArgs` (R68, R69): LDP10 (6), MULP10 (11) and SHADD (12)
check the index, the five forms without an operand (1, 7, 13 to 15) are fixed, 16 is refused, and in the rest nothing can be too wide. -/
theorem wellFormed_of_assembleArgs {m : Mnemonic} {args : List Arg} {i : Instr} (h : assembleArgs m args = some i) :
    i.wellFormed = true := by
  unfold assembleArgs at h
  split at h
  case h_6 | h_11 => exact wellFormed_of_guarded h fun hk => (fitsK_eq _).symm.trans hk
  case h_12 => exact wellFormed_of_guarded h fun hk => (fitsK_eq _).symm.trans (Bool.and_eq_true_iff.mp hk).1
  case h_1 | h_7 | h_13 | h_14 | h_15 => cases h; rfl
  case h_16 => cases h
  all_goals exact wellFormed_of_guarded h fun _ => rfl

/-- The two words of `trunc_128(v)` joined (R69). -/
theorem ofWords_trunc (v : Int) : ofWords (truncHi v) (truncLo v) = BitVec.ofInt 128 v := ofWords_words _

end Sys2Proof.Machine
end

section
/-! The encoding statements (30_encoding.md), settled. -/

namespace Sys2Proof.Proofs

open Sys2Proof.Machine

/-- Settles O5: the encoder's layout puts the opcode, K and the operands where the decoder reads them. -/
theorem decodeOfEncode : Obligations.DecodeOfEncode := by
  intro i hw
  obtain ⟨-, hk, hi⟩ := Laws.encodeLayout i hw
  have hk' : (BitVec.ofNat 8 i.kValue).toNat = i.kValue := by
    rw [← Laws.EncodeLayout.kField_headerOf i.op.code (BitVec.ofNat 8 i.kValue)]; exact hk
  have hlegal : i.op.usesK = false → BitVec.ofNat 8 i.kValue = 0 := fun h => by
    rw [Laws.kValue_of_not_usesK h]; rfl
  calc decode (encode i)
      = .ok (operandsOf i.op (BitVec.ofNat 8 i.kValue).toNat i.ophValue i.oplValue) :=
        Laws.decode_legal i.op _ hlegal _ _
    _ = .ok i := by rw [hk']; exact congrArg _ hi

/-- Settles O1: `decodes_iff` by opcode, and the codes of the two kinds of opcode. -/
theorem headersThatDecode : Obligations.HeadersThatDecode := by
  intro h oph opl
  rw [Laws.decodes_iff, Laws.exists_usesK_code_iff, Laws.exists_not_usesK_code_iff]
  rfl

/-- Settles O2: the count by OP byte of `headerCount_eq`, for three properties of the scale index. -/
theorem headerCounts : Obligations.HeaderCounts := by
  refine ⟨?decoded, ?outside, ?illegal⟩
  case decoded => simpa using Laws.headerCount_eq Option.isSome
  case outside =>
    have h217 : (List.range 256).countP (fun k => decide (39 ≤ k)) = 217 := Laws.countP_range_ge 39 217
    simpa [h217, Option.any_map] using Laws.headerCount_eq fun x => x.any fun k => decide (39 ≤ k)
  case illegal => simpa using Laws.headerCount_eq Option.isNone

/-- Settles O6: a legal header is its opcode and the K that the encoder writes, and the lanes that the opcode uses stand in the operands. -/
theorem encodeOfDecode : Obligations.EncodeOfDecode := by
  intro c i h
  obtain ⟨o, k, hc, hk, rfl⟩ := Laws.decode_eq_ok h
  have hkv : (operandsOf o k.toNat c.oph c.opl).kValue = k.toNat := by
    rw [Laws.kValue_operandsOf]
    cases ho : o.usesK with
    | true => rfl
    | false => rw [hk ho]; rfl
  refine ⟨?wf, ?hdr, ?high, ?low⟩
  case wf => rw [Laws.wellFormed_iff, hkv]; exact k.isLt
  case hdr => rw [encode, Laws.op_operandsOf, hkv, BitVec.ofNat_toNat, BitVec.setWidth_eq, hc]
  case high =>
    rw [Laws.op_operandsOf, ← Laws.usesOph_iff]
    exact fun ho => (Laws.ophValue_operandsOf o _ _ _).trans (if_pos ho)
  case low =>
    rw [Laws.op_operandsOf, ← Laws.usesOpl_iff]
    exact fun ho => (Laws.oplValue_operandsOf o _ _ _).trans (if_pos ho)

/-- Settles O7: an illegal header is illegal whatever the lanes hold, and a legal one has the same operands from both transfers. -/
theorem unusedLanesIgnored : Obligations.UnusedLanesIgnored := by
  intro h oph opl oph' opl' s hh hl
  rcases Laws.decode_cases h with ⟨e, he⟩ | ⟨o, k, rfl, hk, hi⟩
  · rw [runCommand_of_illegal (he oph opl), runCommand_of_illegal (he oph' opl')]
  · rw [runCommand_of_decode (hi oph opl), runCommand_of_decode (hi oph' opl'),
      Laws.operandsOf_congr (fun ho => hh (Laws.header_of_usesOph ho hk)) fun ho => hl (Laws.header_of_usesOpl ho hk)]

/-- Settles O57: each form is its guard, so the range of the guard is the range of the form. -/
theorem assembledCommandsFit : Obligations.AssembledCommandsFit :=
  ⟨fun _ _ _ => wellFormed_of_assembleArgs, fun _ => guarded_decide _ _, fun _ => guarded_decide _ _,
    fun _ _ => guarded_decide_and _ _ _, fun _ => guarded_decide _ _, fun _ => guarded_decide _ _,
    fun _ => guarded_decide _ _, fun _ _ => guarded_decide_and _ _ _, fun _ _ => guarded_decide_and _ _ _, rfl, rfl⟩

/-- Settles O58: the expansions by evaluation, and their effects by the two words of `trunc_128(v)` joined and by `mulNum_eq_mul`. -/
theorem pseudoCommands : Obligations.PseudoCommands := by
  have hld (v : Int) : assembleArgs (.op .ld128) [.imm v] = _ := guarded_decide (-2 ^ 127 ≤ v ∧ v < 2 ^ 128) _
  have hmul (v : Int) : assembleArgs (.op .mul) [.imm v] = _ := guarded_decide (-2 ^ 127 ≤ v ∧ v < 2 ^ 128) _
  refine ⟨by decide, by decide, by decide, hld, hmul, fun v s hlo hhi => ⟨?clr, ?ldmin, ?mul10, ?ld128, ?mul⟩⟩
  case clr => exact ⟨_, rfl, rfl⟩
  case ldmin =>
    have hmin : ofWords 0x8000000000000000 0 = BitVec.ofInt 128 (-2 ^ 127) := by decide
    exact ⟨_, rfl, by rw [← hmin]; rfl⟩
  case mul10 =>
    refine ⟨_, rfl, ?_⟩
    rw [← mulNum_eq_mul]
    exact s.withScale_of_le (k := 1) _ (by decide)
  case ld128 => exact ⟨_, (hld v).trans (if_pos ⟨hlo, hhi⟩), by rw [← ofWords_trunc]; rfl⟩
  case mul => exact ⟨_, (hmul v).trans (if_pos ⟨hlo, hhi⟩), by rw [← mulNum_eq_mul, ← ofWords_trunc]; rfl⟩

/-- Settles O3: `decode_legal`, row by row; a row without a K has K = 0. -/
theorem operandAssembly : Obligations.OperandAssembly := fun k oph opl =>
  ⟨Laws.decode_legal .nop 0 (fun _ => rfl) oph opl, Laws.decode_legal .ldu64 0 (fun _ => rfl) oph opl,
    Laws.decode_legal .ldi64 0 (fun _ => rfl) oph opl, Laws.decode_legal .ld128 0 (fun _ => rfl) oph opl,
    Laws.decode_legal .ldp10 k nofun oph opl, Laws.decode_legal .neg 0 (fun _ => rfl) oph opl,
    Laws.decode_legal .add 0 (fun _ => rfl) oph opl, Laws.decode_legal .mul 0 (fun _ => rfl) oph opl,
    Laws.decode_legal .mulp10 k nofun oph opl, Laws.decode_legal .shadd k nofun oph opl⟩

/-- Settles O4: closed words, so by evaluating the decoder. -/
theorem sampleWords : Obligations.SampleWords :=
  ⟨by decide, by decide, by decide, by decide, by decide, by decide⟩

/-- Settles O10: the step runs the command, and a command that does not decode raises IllegalCommand. -/
theorem stepRaisesIllegalCommand : Obligations.StepRaisesIllegalCommand := by
  intro s c rest hs hno
  cases hc : decode c with
  | ok i => exact absurd hc (hno i)
  | error e =>
    rw [step_of_command hs, runCommand_of_illegal hc, State.raise_eq]
    rfl

/-- Settles O51: an edge that accepts nothing reads no pin but RST, whether a command is in flight or not. -/
theorem portIgnoresUnacceptedInputs : Obligations.PortIgnoresUnacceptedInputs := by
  intro T p x y hx hy hax hay
  cases hf : p.inFlight with
  | some job =>
    obtain ⟨c, n⟩ := job
    exact ⟨by rw [p.edge_of_inFlight T hx hf, p.edge_of_inFlight T hy hf], nofun⟩
  | none =>
    rw [Port.edge_of_quiet T hx hf hax, Port.edge_of_quiet T hy hf hay]
    exact ⟨rfl, fun _ hready => ⟨rfl, by simp [Port.quietEdge, hready], hf⟩⟩

end Sys2Proof.Proofs
end

section
/-! SUPPORT for the load statements (40_load.md): a header with a K that its opcode does not use, the two extensions of a lane as joined
words, the value of a ROM entry, and SIGN of a positive Num. -/

namespace Sys2Proof.Laws

/-- A defined opcode that does not use K is illegal with any other K than 0 (R66). -/
theorem decode_nonzeroK (o : Op) (ho : o.usesK = false) (k : Byte) (oph opl : Lane) (hk : k ≠ 0) :
    decode ⟨headerOf o.code k, oph, opl⟩ = .error (.nonzeroK o k) := by
  rw [decode_code, if_pos ⟨ho, hk⟩]

end Sys2Proof.Laws

namespace Sys2Proof.Machine

/-! ### The extensions of a lane (R81, R82) -/

/-- What LDU64 writes is the zero extension. -/
theorem ofWords_zero (v : Lane) : ofWords 0 v = v.setWidth 128 :=
  (BitVec.setWidth_eq_append (by decide)).symm

/-- What LDI64 writes is the sign extension. -/
theorem ofWords_signWord (v : Lane) : ofWords (signWord v) v = v.signExtend 128 :=
  (BitVec.signExtend_eq_append_of_le (by decide)).symm

/-- A zero extension never reaches the sign bit of a Num, so its value is the lane read as unsigned. -/
theorem toInt_zeroExtend (v : Lane) : (v.setWidth 128).toInt = v.toNat := by
  have hv : (v.setWidth 128).toNat = v.toNat := BitVec.toNat_setWidth_of_le (by decide)
  rw [BitVec.toInt_eq_toNat_of_lt (by have := v.isLt; omega), hv]

/-! ### Positive values (R81, R84) -/

/-- SIGN shows +1 for a positive value (R28). -/
theorem signPort_of_pos {n : Num128} (h : 0 < n.toInt) : signPort n = 0b01 := by
  rw [signPort_eq, if_neg h.ne', if_neg h.not_gt]

/-- The value of a ROM entry: `10^k` does not reach the sign bit (R43). -/
theorem toInt_of_romRead {k : Nat} {p : Num128} (h : romRead k = some p) : p.toInt = 10 ^ k := by
  have hk : k ≤ Config.kMax := (romRead_isSome_iff k).mp (by simp [h])
  have hp := toNat_of_romRead h
  have hlt := pow_ten_lt hk
  rw [BitVec.toInt_eq_toNat_of_lt (by omega), hp, Nat.cast_pow, Nat.cast_ofNat]

end Sys2Proof.Machine
end

section
/-! The load statements (40_load.md), settled. -/

namespace Sys2Proof.Proofs

open Sys2Proof.Machine

/-- Settles O16: the joined words are the zero extension, whose value is not negative. -/
theorem loadUnsigned : Obligations.LoadUnsigned := by
  refine ⟨Laws.decode_legal .ldu64 0 fun _ => rfl, Laws.decode_nonzeroK .ldu64 rfl, fun v s => ?_⟩
  refine ⟨?acc, ?hi, ?lo, toInt_zeroExtend v, ?sign⟩
  case acc => rw [← ofWords_zero]; rfl
  case hi => rw [← ofWords_zero, hiWord_ofWords]
  case lo => rw [← ofWords_zero, loWord_ofWords]
  case sign =>
    split_ifs with hv
    · subst hv; decide
    · have hpos : v.toNat ≠ 0 := fun h => hv (BitVec.eq_of_toNat_eq h)
      exact signPort_of_pos (by rw [toInt_zeroExtend]; omega)

/-- Settles O17: the joined words are the sign extension, which keeps the value. -/
theorem loadSigned : Obligations.LoadSigned := by
  refine ⟨Laws.decode_legal .ldi64 0 fun _ => rfl, Laws.decode_nonzeroK .ldi64 rfl, fun v s => ?_⟩
  have hval : (v.signExtend 128).toInt = v.toInt := BitVec.toInt_signExtend_of_le (by decide)
  refine ⟨?acc, ?hi, ?lo, hval, ?sign⟩
  case acc => rw [← ofWords_signWord]; rfl
  case hi => rw [← ofWords_signWord, hiWord_ofWords, signWord, BitVec.msb_eq_getLsbD_last]
  case lo => rw [← ofWords_signWord, loWord_ofWords]
  case sign => rw [sign_eq_sign, hval]

/-- Settles O19: inside the ROM the entry is written, and it is positive; outside it the fault is raised, as for every ROM command. -/
theorem loadPowerOfTen : Obligations.LoadPowerOfTen := by
  obtain ⟨hentry, -, hfault⟩ := romReadBounds
  refine ⟨fun k => Laws.decode_legal .ldp10 k nofun, fun k s hk => ?inside, fun k s hk => ?outside⟩
  case inside =>
    have hrom := hentry k hk
    refine ⟨s.withScale_of_le _ hk, hrom, signPort_of_pos ?_⟩
    rw [toInt_of_romRead hrom]
    positivity
  case outside => exact hfault k 0 s hk _ List.mem_cons_self

/-- Settles O15: the header by `decode_legal`, any other K by the fault it raises, and the meaning by definition. -/
theorem nopChangesNothing : Obligations.NopChangesNothing := by
  refine ⟨Laws.decode_legal .nop 0 fun _ => rfl, fun kk oph opl s hk => ?_, fun _ => rfl⟩
  have hdec : decode ⟨0x00#8 ++ kk, oph, opl⟩ = .error (.nonzeroK .nop kk) :=
    Laws.decode_nonzeroK .nop rfl kk oph opl hk
  exact ⟨hdec, by rw [runCommand_of_illegal hdec, State.raise_eq]; rfl⟩

/-- Settles O18: LD128 writes the joined words as they stand. -/
theorem loadWords : Obligations.LoadWords := by
  have hpow : ofWords 5421010862427522170 687399551400673280 = BitVec.ofNat 128 (10 ^ 38) := by decide
  exact ⟨Laws.decode_legal .ld128 0 fun _ => rfl, Laws.decode_nonzeroK .ld128 rfl, fun _ _ _ => rfl,
    fun s => by rw [← hpow]; rfl, fun hi lo => ⟨hiWord_ofWords hi lo, loWord_ofWords hi lo⟩⟩

end Sys2Proof.Proofs
end

section
/-! SUPPORT for the negator and adder statements (41_addneg.md): the negation and the increment as values, and MIN, the one Num with no
opposite. -/

namespace Sys2Proof.Machine

/-! ### The two commands write what their unit computes (R90, R91) -/

theorem exec_neg (s : State) : exec .neg s = .next (s.writeAcc (negNum s.acc)) := rfl

theorem exec_add (delta : Lane) (s : State) : exec (.add delta) s = .next (s.writeAcc (addNum s.acc delta)) := rfl

/-! ### The negator (R92, R93) -/

theorem minNum_eq_intMin : minNum = BitVec.intMin 128 := rfl

theorem negNum_eq_ofNat (n : Num128) : negNum n = BitVec.ofNat 128 (2 ^ 128 - n.toNat) := negNum_eq_neg n

theorem negNum_minNum : negNum minNum = minNum := by
  rw [negNum_eq_neg, minNum_eq_intMin, BitVec.neg_intMin]

theorem toInt_negNum_of_ne_min {n : Num128} (h : n ≠ minNum) : (negNum n).toInt = -n.toInt := by
  rw [negNum_eq_neg]
  exact BitVec.toInt_neg_of_ne_intMin h

theorem negNum_negNum (n : Num128) : negNum (negNum n) = n := by
  rw [negNum_eq_neg, negNum_eq_neg, neg_neg]

/-- Away from MIN a fixed point is its own opposite as a number, so it is 0. -/
theorem negNum_eq_self_iff (n : Num128) : negNum n = n ↔ n = 0 ∨ n = minNum := by
  constructor
  · intro hfix
    refine or_iff_not_imp_right.mpr fun hmin => ?_
    have hval : n.toInt = -n.toInt := by rw [← toInt_negNum_of_ne_min hmin, hfix]
    exact BitVec.eq_of_toInt_eq (self_eq_neg.mp hval)
  · rintro (rfl | rfl)
    · rw [negNum_eq_neg, neg_zero]
    · exact negNum_minNum

/-- SIGN after NEG (R90); MIN keeps its own, by `negNum_minNum`. -/
theorem sign_negNum_of_ne_min {n : Num128} (h : n ≠ minNum) : sign (negNum n) = -n.toInt.sign := by
  rw [sign_eq_sign, toInt_negNum_of_ne_min h, Int.sign_neg]

/-! ### The adder (R94) -/

theorem addNum_eq_ofNat (n : Num128) (delta : Lane) : addNum n delta = BitVec.ofNat 128 (n.toNat + delta.toNat) := by
  rw [addNum_eq_add, BitVec.ofNat_add, BitVec.ofNat_toNat, BitVec.ofNat_toNat, BitVec.setWidth_eq]

theorem toInt_addNum (n : Num128) (delta : Lane) : (addNum n delta).toInt = (n.toInt + delta.toNat).bmod (2 ^ 128) := by
  rw [addNum_eq_ofInt, BitVec.toInt_ofInt]

/-- A lane read as unsigned is `2^64` above its signed value when its top bit is set, and equal to it otherwise. -/
theorem toNat_lane (v : Lane) : (v.toNat : Int) = v.toInt + if v.getLsbD 63 = true then 2 ^ 64 else 0 := by
  rw [BitVec.toInt_eq_msb_cond, BitVec.msb_eq_getLsbD_last]
  split_ifs <;> omega

end Sys2Proof.Machine
end

section
/-! The negator and adder statements (41_addneg.md), settled. -/

namespace Sys2Proof.Proofs

open Sys2Proof.Machine

/-- Settles O22: the header by `decode_legal`, the mechanism by definition, and SIGN as that of the opposite value but for MIN. -/
theorem negMechanism : Obligations.NegMechanism := by
  refine ⟨Laws.decode_legal .neg 0 fun _ => rfl, Laws.decode_nonzeroK .neg rfl, fun _ => rfl, fun s t ht => ?_⟩
  cases (exec_neg s).symm.trans ht
  refine ⟨fun hpos => ?positive, fun hneg hmin => ?negative, fun hzero => ?zero, fun hmin => ?min⟩
  case positive =>
    have hmin : s.acc ≠ minNum := fun h => absurd (h ▸ hpos) (by decide)
    exact (sign_negNum_of_ne_min hmin).trans (by rw [Int.sign_eq_one_of_pos hpos])
  case negative => exact (sign_negNum_of_ne_min hmin).trans (by rw [Int.sign_eq_neg_one_of_neg hneg, neg_neg])
  case zero => rw [State.writeAcc_acc, hzero]; decide
  case min => rw [State.writeAcc_acc, hmin]; decide

/-- Settles O23: the negator's Num in the rule's form has the value and the fixed point of `negNum`. -/
theorem negIsTwosComplement : Obligations.NegIsTwosComplement := by
  intro s
  rw [← negNum_eq_ofNat]
  exact ⟨rfl, toInt_negNum_of_ne_min, fun hmin => (negNum_eq_self_iff s.acc).mpr (.inr hmin)⟩

/-- Settles O24: NEG writes ACC alone, so the negator's involution and fixed points are those of the command. -/
theorem negIsInvolution : Obligations.NegIsInvolution := by
  intro s
  refine ⟨_, exec_neg s, ?twice, negNum_eq_self_iff s.acc⟩
  rw [exec_neg, State.writeAcc_acc, negNum_negNum]
  rfl

/-- Settles O26: the increment counts with its unsigned value, which is its signed one or `2^64` more. -/
theorem addIsZeroExtendedSum : Obligations.AddIsZeroExtendedSum := by
  intro delta s
  refine ⟨_, exec_add delta s, by rw [addNum_eq_ofNat]; rfl, fun hclear => ?clear, fun hset => ?set⟩
  case clear => rw [State.writeAcc_acc, toInt_addNum, toNat_lane, if_neg (by rw [hclear]; decide), add_zero]
  case set => rw [State.writeAcc_acc, toInt_addNum, toNat_lane, if_pos hset, add_assoc]

/-- Settles O25: the header by `decode_legal`, and the mechanism by definition. -/
theorem addMechanism : Obligations.AddMechanism :=
  ⟨Laws.decode_legal .add 0 fun _ => rfl, Laws.decode_nonzeroK .add rfl, fun _ _ => rfl⟩

end Sys2Proof.Proofs
end

section
/-! SUPPORT for the multiplier statements (42_mul.md): what MUL, MULP10 and SHADD write, the multiplier's special operands, the chunk step
on integers, and the limb method. -/

namespace Sys2Proof.Machine

/-! ### The three commands write what the multiplier computes (R100, R101, R102) -/

theorem exec_mul (hi lo : Lane) (s : State) : exec (.mul hi lo) s = .next (s.writeAcc (mulNum s.acc (ofWords hi lo))) := rfl

/-- MUL by a known product. -/
theorem exec_mul_of_product {hi lo : Lane} {s : State} {n : Num128} (h : mulNum s.acc (ofWords hi lo) = n) :
    exec (.mul hi lo) s = .next (s.writeAcc n) := by rw [exec_mul, h]

theorem exec_mulp10_of_le {k : Nat} (hk : k ≤ Config.kMax) (s : State) :
    exec (.mulp10 k) s = .next (s.writeAcc (mulNum s.acc (BitVec.ofNat 128 (10 ^ k)))) := s.withScale_of_le _ hk

theorem exec_shadd_of_le {k : Nat} (hk : k ≤ Config.kMax) (chunk : Lane) (s : State) :
    exec (.shadd k chunk) s = .next (s.writeAcc (addNum (mulNum s.acc (BitVec.ofNat 128 (10 ^ k))) chunk)) :=
  s.withScale_of_le _ hk

/-! ### The multiplier's special operands (R100, R105) -/

theorem mulNum_zero (a : Num128) : mulNum a 0 = 0 := by rw [mulNum_eq_mul, mul_zero]

theorem mulNum_one (a : Num128) : mulNum a 1 = a := by rw [mulNum_eq_mul, mul_one]

/-- `ROM[0]` is 1. -/
theorem mulNum_ten_pow_zero (a : Num128) : mulNum a (BitVec.ofNat 128 (10 ^ 0)) = a := mulNum_one a

theorem mulNum_neg_one (a : Num128) : mulNum a (-1) = negNum a := by rw [mulNum_eq_mul, negNum_eq_neg, mul_neg_one]

/-- The square, when the lanes hold ACC (R108). -/
theorem exec_mul_self {hi lo : Lane} {s : State} (h : ofWords hi lo = s.acc) :
    exec (.mul hi lo) s = .next (s.writeAcc (BitVec.ofNat 128 (s.acc.toNat ^ 2))) :=
  exec_mul_of_product (by rw [h, mulNum, pow_two])

/-! ### The value of a product or a chunk step (R103, R107) -/

/-- An integer in range is the value of its reduction. -/
theorem toInt_ofInt_of_fits {v : Int} (h : fits128 v) : (BitVec.ofInt 128 v).toInt = v :=
  BitVec.toInt_ofInt_eq_self (by decide) h.1 h.2

/-- The chunk step on numbers (R102). -/
theorem shaddNum_eq_ofNat (a : Num128) (k : Nat) (chunk : Lane) :
    addNum (mulNum a (BitVec.ofNat 128 (10 ^ k))) chunk = BitVec.ofNat 128 (a.toNat * 10 ^ k + chunk.toNat) := by
  rw [mulNum_eq_mul, addNum_eq_add, BitVec.ofNat_add, BitVec.ofNat_mul, BitVec.ofNat_toNat, BitVec.ofNat_toNat,
    BitVec.setWidth_eq]

/-- SHADD when ACC is the reduction of `v`, which may be out of range: two steps compose before any reduction (R107). -/
theorem exec_shadd_of_acc {k : Nat} (hk : k ≤ Config.kMax) (chunk : Lane) {s : State} {v : Int}
    (h : s.acc = BitVec.ofInt 128 v) :
    exec (.shadd k chunk) s = .next (s.writeAcc (BitVec.ofInt 128 (v * 10 ^ k + chunk.toNat))) := by
  have hmul : mulNum s.acc (BitVec.ofNat 128 (10 ^ k)) = BitVec.ofInt 128 (v * 10 ^ k) := by
    rw [mulNum_pow_ten, BitVec.ofInt_mul, BitVec.ofInt_toInt, h, BitVec.ofInt_mul]
  rw [exec_shadd_of_le hk, hmul, addNum_ofInt]

/-- The host's digit counts are scale indices. -/
theorem le_kMax_of_chunkContract {k : Nat} {chunk : Lane} (h : chunkContract k chunk) : k ≤ Config.kMax := by
  obtain ⟨-, hk, -⟩ := h
  exact hk.trans (by decide)

/-- A chunk of at most 18 digits is below `2^63` (R107). -/
theorem getLsbD_63_of_chunkContract {k : Nat} {chunk : Lane} (h : chunkContract k chunk) : chunk.getLsbD 63 = false := by
  obtain ⟨-, hk, hlt⟩ := h
  apply Nat.testBit_lt_two_pow
  calc chunk.toNat < 10 ^ k := hlt
    _ ≤ 10 ^ Config.chunkDigits := Nat.pow_le_pow_right (by decide) hk
    _ < 2 ^ 63 := by decide

/-! ### The limb method (R104) -/

theorem limb_eq (n : Num128) (i : Nat) : limb n i = n.toNat / 2 ^ (32 * i) % 2 ^ 32 := by
  rw [limb, BitVec.extractLsb'_toNat, Nat.shiftRight_eq_div_pow]

/-- A Num is its four limbs. -/
theorem toNat_eq_limbs (n : Num128) :
    n.toNat = limb n 0 + limb n 1 * 2 ^ 32 + limb n 2 * 2 ^ 64 + limb n 3 * 2 ^ 96 := by
  have hn := n.isLt
  simp only [limb_eq]
  omega

/-- The loops of R104 leave out only multiples of `2^128`: the terms with `i + j ≥ 4`. -/
theorem toNat_mul_eq_limbSum_add (a b : Num128) : ∃ r, a.toNat * b.toNat = limbSum a b + 2 ^ 128 * r := by
  refine ⟨limb a 1 * limb b 3 + limb a 2 * limb b 2 + limb a 3 * limb b 1
    + (limb a 2 * limb b 3 + limb a 3 * limb b 2) * 2 ^ 32 + limb a 3 * limb b 3 * 2 ^ 64, ?_⟩
  rw [limbSum, foldl_limbPairs, toNat_eq_limbs a, toNat_eq_limbs b]
  simp only [limbTerm]
  ring

theorem mulByLimbs_eq_mulNum (a b : Num128) : mulByLimbs a b = mulNum a b := by
  obtain ⟨r, hr⟩ := toNat_mul_eq_limbSum_add a b
  apply BitVec.eq_of_toNat_eq
  rw [mulByLimbs, mulNum, hr, BitVec.toNat_ofNat, BitVec.toNat_ofNat, Nat.add_mul_mod_self_left]

end Sys2Proof.Machine
end

section
/-! The multiplier statements (42_mul.md), settled. -/

namespace Sys2Proof.Proofs

open Sys2Proof.Machine

/-- Settles O28: the header by `decode_legal`, the product in both readings, and each corner case as a multiplication by a constant. -/
theorem mulTruncates : Obligations.MulTruncates := by
  refine ⟨Laws.decode_legal .mul 0 fun _ => rfl, Laws.decode_nonzeroK .mul rfl, fun hi lo s => ?product, fun s => ?corners⟩
  case product =>
    refine ⟨?unsigned, ?signed, exec_mul_self⟩
    case unsigned => rw [← toNat_ofWords]; rfl
    case signed => rw [← mulNum_eq_ofInt]; rfl
  case corners =>
    have closed {a r : Num128} {hi lo : Lane} (h : mulNum a (ofWords hi lo) = r) :
        exec (.mul hi lo) (s.writeAcc a) = .next (s.writeAcc r) :=
      exec_mul_of_product (s := s.writeAcc a) h
    exact ⟨exec_mul_of_product (mulNum_zero s.acc), exec_mul_of_product (mulNum_one s.acc),
      exec_mul_of_product (mulNum_neg_one s.acc), closed (by decide), closed (by decide), closed (by decide),
      closed (by decide), closed (by decide)⟩

/-- Settles O29: the two readings of one product; in range it is the exact one, whose sign is the product of the signs. -/
theorem mulSignedAndUnsignedAgree : Obligations.MulSignedAndUnsignedAgree := by
  intro hi lo s
  have hsigned := mulNum_eq_ofInt s.acc (ofWords hi lo)
  refine ⟨_, exec_mul hi lo s, rfl, hsigned, fun hfits => ?_⟩
  have hexact : (mulNum s.acc (ofWords hi lo)).toInt = s.acc.toInt * (ofWords hi lo).toInt := by
    rw [hsigned]
    exact toInt_ofInt_of_fits hfits
  exact ⟨hexact, by rw [State.writeAcc_acc, sign_eq_sign, hexact, Int.sign_mul]; rfl⟩

/-- Settles O30: the limb method computes the multiplier's Num. -/
theorem limbMethodAgrees : Obligations.LimbMethodAgrees := by
  intro hi lo s
  rw [mulByLimbs_eq_mulNum]
  rfl

/-- Settles O31: `ROM[0]` and `0 : 1` are both the Num 1. -/
theorem multiplyByOneIsIdentity : Obligations.MultiplyByOneIsIdentity := by
  intro s
  refine ⟨?mulp10, exec_mul_of_product (mulNum_one s.acc)⟩
  case mulp10 => rw [exec_mulp10_of_le (Nat.zero_le _), mulNum_ten_pow_zero]; rfl

/-- Settles O32: inside the ROM the entry's two words are MUL's multiplier; outside it the fault is raised, as for every ROM command. -/
theorem multiplyByPowerOfTen : Obligations.MultiplyByPowerOfTen := by
  obtain ⟨hentry, -, hfault⟩ := romReadBounds
  refine ⟨fun k => Laws.decode_legal .mulp10 k nofun, fun k s hk => ?inside, fun k s hk => ?outside⟩
  case inside =>
    have hexec := exec_mulp10_of_le hk s
    refine ⟨_, hentry k hk, hexec, hexec.trans ?_⟩
    exact (exec_mul_of_product (congrArg _ (ofWords_words _))).symm
  case outside => exact hfault k 0 s hk _ (by simp)

/-- Settles O33: SHADD's Num is the adder's on MULP10's; `ROM[0]` is 1; and outside the ROM the fault is raised. -/
theorem shiftAndAdd : Obligations.ShiftAndAdd := by
  obtain ⟨-, -, hfault⟩ := romReadBounds
  refine ⟨fun k => Laws.decode_legal .shadd k nofun, fun k chunk s hk => ?inside, fun chunk s => ?zero,
    fun k chunk s hk => hfault k chunk s hk _ (by simp)⟩
  case inside =>
    refine ⟨_, exec_mulp10_of_le hk s, exec_shadd_of_le hk chunk s, ?_⟩
    rw [exec_shadd_of_le hk, shaddNum_eq_ofNat]
    rfl
  case zero =>
    rw [exec_shadd_of_le (Nat.zero_le _), exec_add, mulNum_ten_pow_zero]

/-- Settles O34: each step is exact before the reduction, so only the last result has to fit. -/
theorem chunkStepsConcatenate : Obligations.ChunkStepsConcatenate := by
  refine ⟨fun k chunk s hc hfits => ?one, fun m n c1 c2 s hc1 hc2 hfits => ?two⟩
  case one =>
    have hstep := exec_shadd_of_acc (le_kMax_of_chunkContract hc) chunk (BitVec.ofInt_toInt (x := s.acc)).symm
    exact ⟨getLsbD_63_of_chunkContract hc, _, hstep, toInt_ofInt_of_fits hfits⟩
  case two =>
    have hfirst := exec_shadd_of_acc (le_kMax_of_chunkContract hc1) c1 (BitVec.ofInt_toInt (x := s.acc)).symm
    refine ⟨_, _, hfirst, exec_shadd_of_acc (le_kMax_of_chunkContract hc2) c2 rfl, ?_⟩
    have hdigits : (s.acc.toInt * 10 ^ m + c1.toNat) * 10 ^ n + c2.toNat =
        s.acc.toInt * 10 ^ (m + n) + c1.toNat * 10 ^ n + c2.toNat := by ring
    rw [State.writeAcc_acc, hdigits, toInt_ofInt_of_fits hfits]

/-- Settles O35: the two output ports are the words of ACC. -/
theorem mulByOwnValueSquares : Obligations.MulByOwnValueSquares := fun s => exec_mul_self (ofWords_words s.acc)

end Sys2Proof.Proofs
end

section
/-! SUPPORT for the exception statements (60_exceptions.md): STATUS after a fault, which commands fault, and one block's step among
several. -/

namespace Sys2Proof.Machine

/-! ### STATUS after a fault (R29, R122) -/

/-- After a fault ERR is 1, whether this fault set it or an earlier one did. -/
@[simp] theorem statusErr_raise (s : State) (f : Cause) : statusErr (s.raise f).status = true := by
  cases he : statusErr s.status with
  | false => rw [State.raise_of_clear f he]; exact statusErr_statusWord true f.code
  | true => rw [State.raise_of_set f he]; exact he

/-- With ERR = 0 a fault's cause is recorded. -/
theorem statusCause_raise_of_clear {s : State} (f : Cause) (h : statusErr s.status = false) :
    statusCause (s.raise f).status = f.code := by
  rw [State.raise_of_clear f h]
  exact statusCause_statusWord true f.code

/-- With ERR = 1 a command completes and leaves STATUS: its rule writes ACC, or raises a fault that is not the first. -/
theorem runCommand_status_of_set (c : Command) {s : State} (h : statusErr s.status = true) :
    ∃ t, runCommand c s = .next t ∧ t.status = s.status := by
  rcases runCommand_cases c s with ⟨n, hrun⟩ | ⟨f, hrun⟩
  · exact ⟨_, hrun, rfl⟩
  · exact ⟨_, hrun, by rw [State.raise_of_set f h]⟩

/-! ### Which commands fault (R121, R123, R124) -/

/-- A command whose header holds a defined opcode and a K that the opcode allows. -/
theorem decode_of_code {c : Command} {o : Op} (ho : o.code = opField c.hdr) (hk : o.usesK = false → kField c.hdr = 0) :
    decode c = .ok (operandsOf o (kField c.hdr).toNat c.oph c.opl) := by
  have hlegal := Laws.decode_legal o (kField c.hdr) hk c.oph c.opl
  rwa [ho, Laws.headerOf_fields] at hlegal

/-- The opcodes that use K fault outside the ROM (R42, R123). -/
theorem exec_operandsOf_of_gt {o : Op} {k : Nat} (ho : o.usesK = true) (hk : Config.kMax < k) (oph opl : Lane) (s : State) :
    exec (operandsOf o k oph opl) s = .next (s.raise .scaleOutOfRange) := by
  cases o with
  | ldp10 | mulp10 | shadd => exact exec_of_scale_gt (chunk := opl) s hk (by simp [operandsOf])
  | _ => cases ho

/-- A decoded command whose scale index, if it uses one, is in the ROM raises no fault. -/
theorem exec_operandsOf_of_le {o : Op} {k : Nat} (hk : o.usesK = true → k ≤ Config.kMax) (oph opl : Lane) (s : State) :
    ∃ n, exec (operandsOf o k oph opl) s = .next (s.writeAcc n) := by
  cases o with
  | ldp10 | mulp10 | shadd => exact ⟨_, s.withScale_of_le _ (hk rfl)⟩
  | nop => exact ⟨s.acc, rfl⟩
  | _ => exact ⟨_, rfl⟩

/-! ### Several blocks (R131) -/

theorem System.stepBlock_of_none {y : System} {n : Nat} (h : y.blocks[n]? = none) : y.stepBlock n = none := by
  simp only [System.stepBlock, h]

theorem System.stepBlock_of_step {y : System} {n : Nat} {s t : State} (h : y.blocks[n]? = some s) (ht : step s = .next t) :
    y.stepBlock n = some ⟨y.blocks.set n t⟩ := by
  simp only [System.stepBlock, h, ht]

/-- Everything a block's step can do: nothing, where there is no such block, or the block's own step and no other's. -/
theorem System.stepBlock_cases (y : System) (n : Nat) :
    (y.blocks[n]? = none ∧ y.stepBlock n = none) ∨
    ∃ s t, y.blocks[n]? = some s ∧ step s = .next t ∧ y.stepBlock n = some ⟨y.blocks.set n t⟩ := by
  cases h : y.blocks[n]? with
  | none => exact .inl ⟨rfl, System.stepBlock_of_none h⟩
  | some s =>
    obtain ⟨t, ht⟩ := step_completes s
    exact .inr ⟨s, t, rfl, ht, System.stepBlock_of_step h ht⟩

/-- A block's step leaves every other block as it is. -/
theorem System.stepBlock_other {y z : System} {m n : Nat} (hmn : m ≠ n) (h : y.stepBlock m = some z) :
    z.blocks[n]? = y.blocks[n]? := by
  rcases y.stepBlock_cases m with ⟨-, hm⟩ | ⟨s, t, -, -, hm⟩ <;> cases hm.symm.trans h
  exact List.getElem?_set_ne hmn

/-- The step of a block that does not exist is not made possible by another block's step. -/
theorem System.bind_stepBlock_of_none {y : System} {m n : Nat} (hmn : m ≠ n) (h : y.blocks[n]? = none) :
    (y.stepBlock m).bind (System.stepBlock · n) = none := by
  rw [Option.bind_eq_none_iff]
  intro z hz
  exact System.stepBlock_of_none ((System.stepBlock_other hmn hz).trans h)

/-- One block's step and then another's put both blocks' next states in place. -/
theorem System.bind_stepBlock_of_step {y : System} {m n : Nat} {s t s' t' : State} (hmn : m ≠ n)
    (hm : y.blocks[m]? = some s) (ht : step s = .next t) (hn : y.blocks[n]? = some s') (ht' : step s' = .next t') :
    (y.stepBlock m).bind (System.stepBlock · n) = some ⟨(y.blocks.set m t).set n t'⟩ := by
  have hfirst := System.stepBlock_of_step hm ht
  rw [hfirst, Option.bind_some]
  exact System.stepBlock_of_step ((System.stepBlock_other hmn hfirst).trans hn) ht'

end Sys2Proof.Machine
end

section
/-! The exception statements (60_exceptions.md), settled. -/

namespace Sys2Proof.Proofs

open Sys2Proof.Machine

/-- Settles O36: the first fault is recorded; and ERR is 1 after any fault, so the next command leaves STATUS. -/
theorem faultEffect : Obligations.FaultEffect := by
  intro s f
  refine ⟨s.raise_acc f, s.raise_stream f, fun hclear => ⟨statusErr_raise s f, ?cause⟩,
    fun hset => by rw [State.raise_of_set f hset], fun d => runCommand_status_of_set d (statusErr_raise s f)⟩
  case cause => exact (statusCause_raise_of_clear f hclear).trans (by cases f <;> rfl)

/-- Settles O37, by the statement's own cases on OP and K: a legal header runs by its rule, which faults exactly when its scale index is
outside the ROM, and every other header is one that does not decode. -/
theorem faultsArePreciseAndPrioritised : Obligations.FaultsArePreciseAndPrioritised := by
  intro c s
  by_cases hscale : c.hdr.extractLsb' 8 8 ∈ [0x04, 0x0B, 0x0C]
  · obtain ⟨o, ho, hcode⟩ := (Laws.exists_usesK_code_iff _).mpr hscale
    have hrun := runCommand_of_decode (decode_of_code hcode (by simp [ho])) s
    by_cases hk : 38 < (c.hdr.extractLsb' 0 8).toNat
    · refine ⟨_, hrun.trans (exec_operandsOf_of_gt ho hk _ _ s), s.raise_stream _, ?_⟩
      rw [if_pos hscale, if_pos hk]
      exact ⟨s.raise_acc _, s.raise_status _⟩
    · obtain ⟨n, hn⟩ := exec_operandsOf_of_le (fun _ => Nat.le_of_not_lt hk) c.oph c.opl s
      refine ⟨_, hrun.trans hn, rfl, ?_⟩
      rw [if_pos hscale, if_neg hk]
      rfl
  · by_cases hplain : c.hdr.extractLsb' 8 8 ∈ [0x00, 0x01, 0x02, 0x03, 0x08, 0x09, 0x0A] ∧ c.hdr.extractLsb' 0 8 = 0
    · obtain ⟨o, ho, hcode⟩ := (Laws.exists_not_usesK_code_iff _).mpr hplain.1
      have hrun := runCommand_of_decode (decode_of_code hcode fun _ => hplain.2) s
      obtain ⟨n, hn⟩ := exec_operandsOf_of_le (o := o) (by simp [ho]) c.oph c.opl s
      refine ⟨_, hrun.trans hn, rfl, ?_⟩
      rw [if_neg hscale, if_pos hplain]
      rfl
    · cases hdecode : decode c with
      | ok i => exact absurd ((headersThatDecode c.hdr c.oph c.opl).mp ⟨i, hdecode⟩) (not_or.mpr ⟨hscale, hplain⟩)
      | error e =>
        refine ⟨_, runCommand_of_illegal hdecode s, s.raise_stream _, ?_⟩
        rw [if_neg hscale, if_neg hplain]
        exact ⟨s.raise_acc _, s.raise_status _⟩

/-- Settles O38: of what a step can do, only a reset writes STATUS once ERR is 1. -/
theorem faultIsSticky : Obligations.FaultIsSticky := by
  intro s t hset hreset ht
  rcases step_cases s with ⟨-, h⟩ | ⟨rest, hs, -⟩ | ⟨c, rest, hs, -⟩
  case inl => cases h.symm.trans ht; rfl
  case inr.inl => exact absurd hs (hreset rest)
  case inr.inr =>
    obtain ⟨u, hu, hstatus⟩ := runCommand_status_of_set c (s := { s with stream := rest }) hset
    cases hu.symm.trans ((step_of_command hs).symm.trans ht)
    exact hstatus

/-- Settles O13: every arm of a step answers a next state. -/
theorem everyStepCompletes : Obligations.EveryStepCompletes := step_completes

/-- Settles O56: the steps of two blocks write two different places of the list, and neither makes a block. -/
theorem blocksAreIndependent : Obligations.BlocksAreIndependent := by
  intro y m n hmn
  refine ⟨fun z => System.stepBlock_other hmn, ?commute, fun hlt => ?steps⟩
  case commute =>
    rcases y.stepBlock_cases m with ⟨hm, hstep⟩ | ⟨s, t, hm, ht, -⟩
    · rw [hstep, System.bind_stepBlock_of_none hmn.symm hm, Option.bind_none]
    · rcases y.stepBlock_cases n with ⟨hn, hstep⟩ | ⟨s', t', hn, ht', -⟩
      · rw [hstep, System.bind_stepBlock_of_none hmn hn, Option.bind_none]
      · rw [System.bind_stepBlock_of_step hmn hm ht hn ht', System.bind_stepBlock_of_step hmn.symm hn ht' hm ht,
          List.set_comm t t' hmn]
  case steps =>
    obtain ⟨t, ht⟩ := step_completes y.blocks[m]
    exact ⟨_, System.stepBlock_of_step (List.getElem?_eq_getElem hlt) ht⟩

/-- Settles O12: with no event in the stream the step is `idle`. -/
theorem stepIdles : Obligations.StepIdles := by
  intro s hs
  simp only [step, hs, idle]

end Sys2Proof.Proofs
end

section
/-! SUPPORT for the reset and hazard statements (70_reset_and_hazards.md): the next event by its kind, what one edge of CLK can do, and
what a run of edges leaves: under RST, while a command is in flight, and without RST. -/

namespace Sys2Proof.Machine

/-! ### The next event -/

/-- A table word that decodes is a command that decodes. -/
theorem decode_of_decodeTableWord {nbits w : Nat} {i : Instr} (h : decodeTableWord nbits w = some i) :
    decode (commandOfTableWord nbits w) = .ok i := by
  unfold decodeTableWord at h
  split at h
  · cases h; assumption
  · cases h

/-- A step with a reset as the oldest event takes it from the stream (R141). -/
theorem step_of_reset {s : State} {rest : List PortEvent} (hs : s.stream = .reset :: rest) :
    step s = takeReset { s with stream := rest } := by
  simp only [step, hs]

/-! ### One edge (R141, R144, R145) -/

theorem Port.accepts_iff (p : Port) (x : Pins) :
    p.accepts x = true ↔ x.rst = false ∧ x.valid = true ∧ p.ready = true := by
  simp [Port.accepts, and_assoc]

theorem Port.accepts_of_rst (p : Port) {x : Pins} (h : x.rst = true) : p.accepts x = false := by
  simp [Port.accepts, h]

theorem Port.accepts_of_not_ready {p : Port} (h : p.ready = false) (x : Pins) : p.accepts x = false := by
  simp [Port.accepts, h]

/-- The completing edge of a command. -/
theorem Port.advance_of_le_one (p : Port) (c : Command) {n : Nat} (h : n ≤ 1) :
    p.advance c n = { core := complete c p.core, ready := true, inFlight := none, rstHeld := 0 } :=
  if_pos h

/-- An edge before the completing one. -/
theorem Port.advance_of_one_lt (p : Port) (c : Command) {n : Nat} (h : 1 < n) :
    p.advance c n = { core := p.core, ready := false, inFlight := some (c, n - 1), rstHeld := 0 } :=
  if_neg h.not_ge

/-- Everything an edge can do: reset, advance the command in flight, accept a command, or hold the registers. -/
theorem Port.edge_cases (T : Config.Timing) (p : Port) (x : Pins) :
    (x.rst = true ∧ p.edge T x = p.resetEdge) ∨
    (∃ c n, p.inFlight = some (c, n) ∧ p.edge T x = p.advance c n) ∨
    (p.inFlight = none ∧ p.accepts x = true ∧ p.edge T x = p.advance x.cmd (T.lat (opField x.cmd.hdr))) ∨
    (p.inFlight = none ∧ p.accepts x = false ∧ p.edge T x = p.quietEdge T) := by
  cases hrst : x.rst with
  | true => exact .inl ⟨rfl, p.edge_of_reset T hrst⟩
  | false =>
    cases hf : p.inFlight with
    | some job => exact .inr (.inl ⟨job.1, job.2, rfl, p.edge_of_inFlight T hrst hf⟩)
    | none =>
      cases ha : p.accepts x with
      | true => exact .inr (.inr (.inl ⟨rfl, rfl, p.edge_of_accepts T hrst hf ha⟩))
      | false => exact .inr (.inr (.inr ⟨rfl, rfl, p.edge_of_quiet T hrst hf ha⟩))

/-! ### The invariant: not ready while a command is in flight -/

theorem Port.wf_of_inFlight_none {p : Port} (h : p.inFlight = none) : p.wf = true := by
  simp [Port.wf, h]

theorem Port.ready_of_wf_of_inFlight {p : Port} {c : Command} {n : Nat} (hwf : p.wf = true) (hf : p.inFlight = some (c, n)) :
    p.ready = false := by
  simp only [Port.wf, hf, Bool.and_eq_true, Bool.not_eq_true'] at hwf
  exact hwf.1

/-- A command advanced from any port has completed, or has an edge left with CMD_READY = 0. -/
theorem Port.wf_advance (p : Port) (c : Command) (n : Nat) : (p.advance c n).wf = true := by
  rcases Nat.lt_or_ge 1 n with h | h
  · rw [p.advance_of_one_lt c h]
    simp only [Port.wf, Bool.not_false, Bool.true_and, decide_eq_true_eq]
    omega
  · rw [p.advance_of_le_one c h]
    rfl

/-- Every edge leaves the invariant, whatever port it starts from. -/
theorem Port.wf_edge (T : Config.Timing) (p : Port) (x : Pins) : (p.edge T x).wf = true := by
  rcases p.edge_cases T x with ⟨-, h⟩ | ⟨c, n, -, h⟩ | ⟨-, -, h⟩ | ⟨hf, -, h⟩ <;> rw [h]
  case inl => rfl
  case inr.inl => exact p.wf_advance c n
  case inr.inr.inl => exact p.wf_advance _ _
  case inr.inr.inr => exact Port.wf_of_inFlight_none hf

/-! ### Edges with RST = 1 (R141) -/

theorem Port.accepted_append (T : Config.Timing) (p : Port) (xs ys : List Pins) :
    p.accepted T (xs ++ ys) = p.accepted T xs ++ (p.run T xs).accepted T ys := by
  induction xs generalizing p with
  | nil => rfl
  | cons x xs ih => rw [List.cons_append, Port.accepted_cons, Port.accepted_cons, ih, Port.run_cons, List.append_assoc]

theorem Port.accepted_of_rst (T : Config.Timing) (p : Port) {xs : List Pins} (h : ∀ y ∈ xs, y.rst = true) :
    p.accepted T xs = [] := by
  induction xs generalizing p with
  | nil => rfl
  | cons x xs ih =>
    obtain ⟨hx, hxs⟩ := List.forall_mem_cons.mp h
    rw [Port.accepted_cons, p.accepts_of_rst hx, ih _ hxs]
    rfl

/-- Reset edges after a reset edge only count. -/
theorem Port.run_resetEdge (T : Config.Timing) (p : Port) {xs : List Pins} (h : ∀ y ∈ xs, y.rst = true) :
    p.resetEdge.run T xs = { p.resetEdge with rstHeld := p.rstHeld + 1 + xs.length } := by
  induction xs generalizing p with
  | nil => rfl
  | cons x xs ih =>
    obtain ⟨hx, hxs⟩ := List.forall_mem_cons.mp h
    rw [Port.run_cons, Port.edge_of_reset T _ hx, ih _ hxs, List.length_cons, Nat.add_comm xs.length, ← Nat.add_assoc]
    rfl

/-- The port after reset edges, one at least. -/
theorem Port.run_of_rst (T : Config.Timing) (p : Port) {xs : List Pins} (hpos : 1 ≤ xs.length) (h : ∀ y ∈ xs, y.rst = true) :
    p.run T xs = { p.resetEdge with rstHeld := p.rstHeld + xs.length } := by
  cases xs with
  | nil => cases hpos
  | cons x xs =>
    obtain ⟨hx, hxs⟩ := List.forall_mem_cons.mp h
    rw [Port.run_cons, p.edge_of_reset T hx, p.run_resetEdge T hxs, List.length_cons, Nat.add_comm xs.length, ← Nat.add_assoc]

/-- A quiet edge after reset edges enough completes the reset. -/
theorem Port.quietEdge_of_held (T : Config.Timing) (p : Port) {m : Nat} (h : T.resetCycles ≤ m) :
    ({ p.resetEdge with rstHeld := m } : Port).quietEdge T = { Port.afterReset with core := p.core.applyReset } := by
  simp [Port.quietEdge, Port.resetEdge, Port.afterReset, h]

/-! ### Edges while a command is in flight (R145) -/

/-- Until the completing edge a command in flight loses one edge at each edge, whatever the host drives, and nothing else changes. -/
theorem Port.run_advance (T : Config.Timing) (p : Port) (c : Command) {n : Nat} {xs : List Pins}
    (hxs : ∀ y ∈ xs, y.rst = false) (hn : xs.length < n) : (p.advance c n).run T xs = p.advance c (n - xs.length) := by
  induction xs generalizing n with
  | nil => rfl
  | cons x xs ih =>
    obtain ⟨hx, hxs⟩ := List.forall_mem_cons.mp hxs
    rw [List.length_cons] at hn
    have hedge : (p.advance c n).edge T x = p.advance c (n - 1) := by
      rw [p.advance_of_one_lt c (by omega), Port.edge_of_inFlight T hx rfl]
      rfl
    rw [Port.run_cons, hedge, ih hxs (by omega), List.length_cons, Nat.add_comm, Nat.sub_sub]

/-! ### Edges with RST = 0: the commands completed, and the registers they leave (R50, R147) -/

/-- The registers once the commands of a list have completed, the first one first. -/
def completeAll (cs : List Command) (s : State) : State := cs.foldl (fun t c => complete c t) s

theorem completeAll_append (cs ds : List Command) (s : State) :
    completeAll (cs ++ ds) s = completeAll ds (completeAll cs s) := List.foldl_append

/-- As many untimed steps as commands presented complete them all (R147). -/
theorem run_commands (cs : List Command) (s : State) :
    Host.Core.run Sys2Proof.core cs.length ({ s with stream := cs.map PortEvent.command } : State) =
      .next ({ completeAll cs s with stream := [] } : State) := by
  induction cs generalizing s with
  | nil => rfl
  | cons c cs ih =>
    have hstep : step { s with stream := (c :: cs).map PortEvent.command } =
        .next { complete c s with stream := cs.map PortEvent.command } :=
      (step_of_command rfl).trans (runCommand_stream (runCommand_eq_complete c s) _)
    exact (run_succ_of_step hstep cs.length).trans (ih (complete c s))

theorem Port.unfinished_of_none {p : Port} (h : p.inFlight = none) : p.unfinished = [] := by
  simp [Port.unfinished, h]

theorem Port.unfinished_of_some {p : Port} {c : Command} {n : Nat} (h : p.inFlight = some (c, n)) : p.unfinished = [c] := by
  simp [Port.unfinished, h]

/-- A command advanced by an edge has completed or is in flight, and the registers say which. -/
theorem Port.advance_completes (p : Port) (c : Command) (n : Nat) :
    ∃ done, [c] = done ++ (p.advance c n).unfinished ∧ (p.advance c n).core = completeAll done p.core := by
  rcases Nat.lt_or_ge 1 n with h | h
  · exact ⟨[], by rw [p.advance_of_one_lt c h]; exact ⟨rfl, rfl⟩⟩
  · exact ⟨[c], by rw [p.advance_of_le_one c h]; exact ⟨rfl, rfl⟩⟩

/-- One edge: of the command in flight before it and the command it accepts, those that it completes write the registers, in order, and
the others are in flight after it. -/
theorem Port.edge_completes (T : Config.Timing) {p : Port} {x : Pins} (hwf : p.wf = true) (hx : x.rst = false) :
    ∃ done, p.unfinished ++ (if p.accepts x then [x.cmd] else []) = done ++ (p.edge T x).unfinished ∧
      (p.edge T x).core = completeAll done p.core := by
  rcases p.edge_cases T x with ⟨hrst, -⟩ | ⟨c, n, hf, h⟩ | ⟨hf, ha, h⟩ | ⟨hf, ha, h⟩
  case inl => exact absurd hrst (by simp [hx])
  case inr.inl =>
    rw [h, Port.unfinished_of_some hf, Port.accepts_of_not_ready (Port.ready_of_wf_of_inFlight hwf hf)]
    exact p.advance_completes c n
  case inr.inr.inl =>
    rw [h, Port.unfinished_of_none hf, ha]
    exact p.advance_completes x.cmd _
  case inr.inr.inr =>
    have hquiet : (p.quietEdge T).unfinished = [] := Port.unfinished_of_none hf
    rw [h, Port.unfinished_of_none hf, ha, hquiet]
    exact ⟨[], rfl, rfl⟩

/-- Any edges with RST = 0, from any port that meets the invariant: `edge_completes` edge after edge. -/
theorem Port.run_completes (T : Config.Timing) {p : Port} {xs : List Pins} (hwf : p.wf = true) (hxs : ∀ y ∈ xs, y.rst = false) :
    ∃ done, p.unfinished ++ p.accepted T xs = done ++ (p.run T xs).unfinished ∧
      (p.run T xs).core = completeAll done p.core := by
  induction xs generalizing p with
  | nil => exact ⟨[], List.append_nil _, rfl⟩
  | cons x xs ih =>
    obtain ⟨hx, hxs⟩ := List.forall_mem_cons.mp hxs
    obtain ⟨first, hfirst, hcore⟩ := Port.edge_completes T hwf hx
    obtain ⟨later, hlater, hcore'⟩ := ih (p.wf_edge T x) hxs
    refine ⟨first ++ later, ?_, by rw [Port.run_cons, hcore', hcore, completeAll_append]⟩
    rw [Port.accepted_cons, ← List.append_assoc, hfirst, List.append_assoc, hlater, List.append_assoc, Port.run_cons]

/-- With nothing in flight at either end, the registers are those that the accepted commands leave, whatever the timing. -/
theorem Port.run_core_of_idle (T : Config.Timing) {p : Port} {xs : List Pins} (hf : p.inFlight = none)
    (hxs : ∀ y ∈ xs, y.rst = false) (hf' : (p.run T xs).inFlight = none) :
    (p.run T xs).core = completeAll (p.accepted T xs) p.core := by
  obtain ⟨done, haccepted, hcore⟩ := Port.run_completes T (Port.wf_of_inFlight_none hf) hxs
  rw [Port.unfinished_of_none hf, Port.unfinished_of_none hf', List.nil_append, List.append_nil] at haccepted
  rw [haccepted, hcore]

end Sys2Proof.Machine
end

section
/-! The reset and hazard statements (70_reset_and_hazards.md), settled. -/

namespace Sys2Proof.Proofs

open Sys2Proof.Machine

/-- Settles O49: a reset edge by its definition; the reset edges count up, and the last edge finds a port that is not ready and has been
reset for long enough. -/
theorem portReset : Obligations.PortReset := by
  intro T p
  refine ⟨fun x hx => ?edge, fun xs x hxs hlen hx => ?pulse⟩
  case edge =>
    rw [p.edge_of_reset T hx]
    exact ⟨rfl, rfl, rfl, p.accepts_of_rst hx⟩
  case pulse =>
    have hrun := p.run_of_rst T (T.resetCycles_pos.trans hlen) hxs
    have hquiet : (p.run T xs).accepts x = false := Port.accepts_of_not_ready (by rw [hrun]; rfl) x
    constructor
    · calc p.run T (xs ++ [x])
          = (p.run T xs).edge T x := p.run_append T xs [x]
        _ = (p.run T xs).quietEdge T := Port.edge_of_quiet T hx (by rw [hrun]; rfl) hquiet
        _ = { Port.afterReset with core := p.core.applyReset } := by
          rw [hrun]; exact p.quietEdge_of_held T (Nat.le_add_left_of_le hlen)
    · rw [Port.accepted_append, p.accepted_of_rst T hxs, Port.accepted_cons, hquiet]
      rfl

/-- Settles O50: the edges after the accepting one take the edges left down (`Port.run_advance`), to more than one or to the last. -/
theorem portCompletion : Obligations.PortCompletion := by
  intro T p x xs hf ha hxs
  have hrst : x.rst = false := ((p.accepts_iff x).mp ha).1
  have hrun (hlat : xs.length < T.lat (opField x.cmd.hdr)) :
      p.run T (x :: xs) = p.advance x.cmd (T.lat (opField x.cmd.hdr) - xs.length) := by
    rw [Port.run_cons, Port.edge_of_accepts T hrst hf ha, p.run_advance T x.cmd hxs hlat]
  constructor
  · intro hbefore
    rw [hrun (by omega), p.advance_of_one_lt x.cmd (by omega)]
    exact ⟨rfl, rfl⟩
  · intro hlast
    rw [hrun (by omega), p.advance_of_le_one x.cmd (by omega)]
    exact ⟨runCommand_eq_complete x.cmd p.core, rfl, rfl⟩

/-- Settles O52: nothing is in flight after reset, and every edge leaves the invariant, from any port. -/
theorem portInvariant : Obligations.PortInvariant :=
  ⟨Port.wf_of_inFlight_none rfl, fun T p x _ => p.wf_edge T x⟩

/-- Settles O53: the commands completed edge after edge (`Port.run_completes`) are those that the untimed steps run (`run_commands`). -/
theorem clockedPortRefinesStep : Obligations.ClockedPortRefinesStep := by
  intro T p xs hf hxs
  obtain ⟨done, haccepted, hcore⟩ := Port.run_completes T (Port.wf_of_inFlight_none hf) hxs
  rw [Port.unfinished_of_none hf, List.nil_append] at haccepted
  exact ⟨done, haccepted, by rw [hcore]; exact run_commands done p.core⟩

/-- Settles O54: under either timing the registers are those that the accepted commands leave. -/
theorem outputsDoNotDependOnLatency : Obligations.OutputsDoNotDependOnLatency := by
  intro T T' p p' xs xs' hcore hf hf' hxs hxs' haccepted hend hend'
  rw [Port.outputs, Port.outputs, Port.run_core_of_idle T hf hxs hend, Port.run_core_of_idle T' hf' hxs' hend', hcore, haccepted]

/-- Settles O9: the placed word is the oldest event, and it decodes as the table word does. -/
theorem stepRunsPlacedWord : Obligations.StepRunsPlacedWord := fun s _ _ _ h =>
  stepRunsDecodedCommand _ _ s.stream _ rfl (decode_of_decodeTableWord h)

/-- Settles O11: the reset is taken from the stream and applied to the registers. -/
theorem stepTakesReset : Obligations.StepTakesReset := fun _ _ hs => step_of_reset hs

end Sys2Proof.Proofs
end
